-- ==== Sys2Proof/Word.lean ====
section
/-! DEFINITION. The word and byte types of sandmac CORE (00_scope.md R8, R10).
All values are unsigned; there is no signed operation anywhere (R10). -/

namespace Sys2Proof

/-- A word: 32 bits, numbered 31 down to 0 (00_scope.md R10; XLEN, WORD and PCLEN of R8). -/
abbrev Word := BitVec 32

/-- A byte of the input or output stream, or of the image file (10_state.md R34, R35). -/
abbrev Byte := BitVec 8

end Sys2Proof
end

