-- ==== Sys2Proof/Config.lean ====
section
/-! DEFINITION. The fixed parameters of sandmac CORE (00_scope.md R8).
The open parameters of R9 (IMAGE, INPUT, AllocOK) are no constants of this file: they are arguments
of `State.boot` and plain data in `State`, so that every statement holds for each of their values
(log 1, 2, 3). PROGRAM_HANDLE, the handle of the currently-executing program, is written `0#32`, as the spec writes it.
The spec leaves no other value open (93_implementation_defined.md, Part 1), so this file
holds no free value. -/

namespace Sys2Proof.Config

/-- NREGS, the number of general registers (00_scope.md R8). -/
abbrev nregs : Nat := 8

/-- EOF_VALUE: what Input writes at end-of-stream (00_scope.md R8). -/
abbrev eofValue : Word := 0xFFFFFFFF#32

/-- The number of values a word has. Arrays are shorter than this (10_state.md R30), an image is shorter
than this (70_reset_and_hazards.md R263), and there are at most this many slots (10_state.md R33(d)). -/
abbrev wordCount : Nat := 4294967296

/-- The largest immediate of the IMM format, 2^25 - 1 (30_encoding.md R85). -/
abbrev immMax : Nat := 0x1FFFFFF

/-- The largest value Output accepts (46_io.md R185). -/
abbrev byteMax : Nat := 255

end Sys2Proof.Config
end

