-- ==== Sys2Proof/Syntax.lean ====
section
/-! DEFINITION. The instructions of sandmac CORE: one constructor per row of the opcode table
(30_encoding.md R86). The three-register constructors carry all three selectors, as `Decode` of R90 gives
them, whether or not the operation uses each (R88). -/

namespace Sys2Proof

/-- A register selector. Every value 0 to 7 is legal in every position, and none names a register that does
not exist (10_state.md R22). -/
abbrev Sel := Fin Config.nregs

/-- The 14 operations (00_scope.md R2: a closed list). `a`, `b`, `c` are the selectors A = `w[8:6]`,
B = `w[5:3]`, C = `w[2:0]` (30_encoding.md R82). -/
inductive Instr where
  /-- ConditionalMove, tag 0 (R130). -/
  | cmov (a b c : Sel)
  /-- ArrayIndex, tag 1 (R135). -/
  | aidx (a b c : Sel)
  /-- ArrayAmendment, tag 2 (R139). -/
  | amend (a b c : Sel)
  /-- Addition, tag 3 (R145). -/
  | add (a b c : Sel)
  /-- Multiplication, tag 4 (R148). -/
  | mul (a b c : Sel)
  /-- Division, tag 5 (R151). -/
  | div (a b c : Sel)
  /-- NotAnd, tag 6 (R155). -/
  | nand (a b c : Sel)
  /-- Halt, tag 7 (R160); uses no selector. -/
  | halt (a b c : Sel)
  /-- Allocation, tag 8 (R165); uses B and C. -/
  | alloc (a b c : Sel)
  /-- Abandonment, tag 9 (R169); uses C. -/
  | aband (a b c : Sel)
  /-- Output, tag 10 (R185); uses C. -/
  | out (a b c : Sel)
  /-- Input, tag 11 (R189); uses C. -/
  | inp (a b c : Sel)
  /-- LoadProgram, tag 12 (R200); uses B and C. -/
  | loadp (a b c : Sel)
  /-- Orthography, tag 13 (R210): the destination selector A_imm = `w[27:25]` and the operand
  `zext_32(w[24:0])`, whose bits 31 to 25 are zero in a well-formed instruction (R84, R85). -/
  | orth (r : Sel) (imm : Word)
  deriving DecidableEq, Repr

end Sys2Proof
end

