-- ==== Sys2Proof/WellFormed.lean ====
section
/-! DEFINITION. Which instructions the encoding can express. Selectors are in range by their type
(10_state.md R22); the one check left is the 25-bit bound on Orthography's immediate (30_encoding.md R85). -/

namespace Sys2Proof

/-- An instruction is well formed when its immediate, if it has one, is at most 2^25 - 1
(30_encoding.md R85, R93). -/
def Instr.wellFormed : Instr → Bool
  | .orth _ imm => decide (imm.toNat ≤ Config.immMax)
  | .cmov _ _ _ | .aidx _ _ _ | .amend _ _ _ | .add _ _ _ | .mul _ _ _ | .div _ _ _ | .nand _ _ _
  | .halt _ _ _ | .alloc _ _ _ | .aband _ _ _ | .out _ _ _ | .inp _ _ _ | .loadp _ _ _ => true

end Sys2Proof
end

