-- ==== Sys2Proof/Decode.lean ====
section
/-! DEFINITION. The Instruction Decoder (30_encoding.md R80 to R92): a pure function of one word, total over
all 2^32 inputs; and the encoder, its inverse on canonical words (R91). -/

namespace Sys2Proof

/-- The operation tag, `w[31:28]` (30_encoding.md R80). -/
def tagField (w : Word) : BitVec 4 := w.extractLsb' 28 4

/-- Selector A, `w[8:6]` (30_encoding.md R82). -/
def selA (w : Word) : Sel := (w.extractLsb' 6 3).toFin

/-- Selector B, `w[5:3]` (30_encoding.md R82). -/
def selB (w : Word) : Sel := (w.extractLsb' 3 3).toFin

/-- Selector C, `w[2:0]` (30_encoding.md R82). -/
def selC (w : Word) : Sel := (w.extractLsb' 0 3).toFin

/-- Orthography's destination selector A_imm, `w[27:25]` (30_encoding.md R84). -/
def selImm (w : Word) : Sel := (w.extractLsb' 25 3).toFin

/-- Orthography's operand, `zext_32(w[24:0])`: no sign extension (30_encoding.md R84, R85). -/
def immField (w : Word) : Word := (w.extractLsb' 0 25).setWidth 32

/-- Why a word is no instruction: the "invalid operation" the decoder signals for tags 14 and 15
(30_encoding.md R87), the only illegal encodings. -/
inductive DecodeError where
  | invalidOperation (tag : BitVec 4)
  deriving DecidableEq, Repr

/-- `Decode` (30_encoding.md R90). Bits 27 to 9 of a three-register word take no part (R83). The tag numbers
are those of R86, the spec's decision D1 (log 8). -/
def decode (w : Word) : Except DecodeError Instr :=
  match (tagField w).toNat with
  | 0 => .ok (.cmov (selA w) (selB w) (selC w))
  | 1 => .ok (.aidx (selA w) (selB w) (selC w))
  | 2 => .ok (.amend (selA w) (selB w) (selC w))
  | 3 => .ok (.add (selA w) (selB w) (selC w))
  | 4 => .ok (.mul (selA w) (selB w) (selC w))
  | 5 => .ok (.div (selA w) (selB w) (selC w))
  | 6 => .ok (.nand (selA w) (selB w) (selC w))
  | 7 => .ok (.halt (selA w) (selB w) (selC w))
  | 8 => .ok (.alloc (selA w) (selB w) (selC w))
  | 9 => .ok (.aband (selA w) (selB w) (selC w))
  | 10 => .ok (.out (selA w) (selB w) (selC w))
  | 11 => .ok (.inp (selA w) (selB w) (selC w))
  | 12 => .ok (.loadp (selA w) (selB w) (selC w))
  | 13 => .ok (.orth (selImm w) (immField w))
  | _ => .error (.invalidOperation (tagField w))

/-- The canonical word of format R3: `tag·2^28 + A·64 + B·8 + C`, bits 27 to 9 zero (30_encoding.md R91). -/
def encodeR3 (tag : Nat) (a b c : Sel) : Word :=
  BitVec.ofNat 32 (tag * 2 ^ 28 + a.val * 64 + b.val * 8 + c.val)

/-- The word of format IMM: `13·2^28 + r·2^25 + imm` (30_encoding.md R91). Of an immediate that is not well
formed the low 25 bits are taken. -/
def encodeImm (r : Sel) (imm : Word) : Word :=
  BitVec.ofNat 32 (13 * 2 ^ 28 + r.val * 2 ^ 25 + imm.toNat % 2 ^ 25)

/-- `Encode` (30_encoding.md R91), with the tags of R86. -/
def encode : Instr → Word
  | .cmov a b c => encodeR3 0 a b c
  | .aidx a b c => encodeR3 1 a b c
  | .amend a b c => encodeR3 2 a b c
  | .add a b c => encodeR3 3 a b c
  | .mul a b c => encodeR3 4 a b c
  | .div a b c => encodeR3 5 a b c
  | .nand a b c => encodeR3 6 a b c
  | .halt a b c => encodeR3 7 a b c
  | .alloc a b c => encodeR3 8 a b c
  | .aband a b c => encodeR3 9 a b c
  | .out a b c => encodeR3 10 a b c
  | .inp a b c => encodeR3 11 a b c
  | .loadp a b c => encodeR3 12 a b c
  | .orth r imm => encodeImm r imm

/-- The instruction word whose low `nbits` bits are those of `w` and whose other bits are 0: every
instruction is one 32-bit word (30_encoding.md R80), numbered from bit 0 as the spec and the opcode table
number it. -/
def tableWord (nbits w : Nat) : Word := BitVec.ofNat 32 (w % 2 ^ nbits)

/-- The instruction the decoder reads from a row of the opcode table; none where it refuses. No instruction
is longer than 32 bits (30_encoding.md R80, R92). -/
def decodeTableWord (nbits w : Nat) : Option Instr :=
  if nbits ≤ 32 then
    match decode (tableWord nbits w) with
    | .ok i => some i
    | .error _ => none
  else none

end Sys2Proof
end

