-- ==== Sys2Proof/Machine/State.lean ====
section
/-! DEFINITION. The architectural state (10_state.md, rules R20 to R39), as plain data, and the machine right
after reset (R39, 70_reset_and_hazards.md R260). -/

namespace Sys2Proof.Machine

/-- The six fatal error kinds (60_exceptions.md R221), in the order of their codes. -/
inductive ErrorKind where
  /-- A fetched word whose tag is 14 or 15. -/
  | invalidOpcode
  /-- An index at or beyond the array's length, or a handle that is not live (Abandonment: or handle 0;
  LoadProgram: or a zero-length array). -/
  | outOfBoundsAccess
  /-- Division by a register that holds 0. -/
  | divisionByZero
  /-- Output of a value above 255. -/
  | invalidOutputByte
  /-- A fetch with `pc` at or beyond the end of array 0. -/
  | programCounterOverrun
  /-- The storage cannot grow. -/
  | allocationFailure
  deriving DecidableEq, Repr

/-- The engine's status (10_state.md R26): `Halted` and `Faulted(e)` are terminal. -/
inductive Status where
  | running
  | halted
  | faulted (e : ErrorKind)
  deriving DecidableEq, Repr

/-- The fault record (10_state.md R27, 60_exceptions.md R224): the error's kind (its numeric code is
`ErrorKind.code`, log 11), the index in array 0 of the faulting fetch, and the fetched word. -/
structure FaultRecord where
  kind : ErrorKind
  addr : Word
  word : Word
  deriving DecidableEq, Repr

/-- A heap array: a sequence of `len` words (10_state.md R30), 0 to 2^32 - 1 of them, held as its length and
its non-zero words. `cells` lists (index, word) pairs; an index below `len` that is not listed holds 0, the
value every word of a new array has (20_memory.md R65; log 7). `WordArray.wf` is the canonical form. -/
structure WordArray where
  len   : Nat
  cells : List (Nat × Word)
  deriving DecidableEq, Repr

/-- The Array Heap (10_state.md R31, R32): the slots, indexed by handle, and the stack of freed handles, its
top first (log 6). -/
structure Memory where
  slots : List (Option WordArray)
  free  : List Word
  deriving DecidableEq, Repr

/-- The environment's parameter `AllocOK`, a function of the current heap and the requested length
(00_scope.md R9, 45_heap_management.md R168), as plain data: the answer is `otherwise`, but for the listed
requests, which get the other answer. No step changes it (log 3). -/
structure AllocOracle where
  otherwise  : Bool
  exceptions : List (Memory × Nat)
  deriving DecidableEq, Repr

/-- The whole state of the machine (10_state.md) and the environment's parameters `INPUT` and `AllocOK`,
which no step changes (00_scope.md R9; log 2, 3). -/
structure State where
  /-- The Register File `x[0]` .. `x[7]` (R20). -/
  regs : Vector Word Config.nregs
  /-- The program counter, a word index into array 0 (R23). -/
  pc : Word
  /-- The Execution Engine's status (R26). -/
  status : Status
  /-- The fault record, present exactly when the status is `Faulted` (R27). -/
  fault : Option FaultRecord
  /-- The Array Heap: `slots` and `free` (R31, R32). -/
  mem : Memory
  /-- `in_pos`, the number of input bytes consumed (R34). -/
  inPos : Nat
  /-- The bytes emitted so far, oldest first (R35). -/
  out : List Byte
  /-- The parameter `INPUT` (R34, 00_scope.md R9). -/
  input : List Byte
  /-- The parameter `AllocOK` (00_scope.md R9). -/
  allocOracle : AllocOracle
  deriving DecidableEq, Repr

/-- Why a step gives no next state. A fatal error of the hardware is NOT one of these: raising it is a
transition to a state whose status is `Faulted` (60_exceptions.md R230). -/
inductive Fault where
  /-- Raised by `step` in a state whose status is `Halted`: no step exists there (40_execution_engine.md
  R110). Safe. -/
  | engineHalted
  /-- Raised by `step` in a state whose status is `Faulted(e)`: no step exists there (40_execution_engine.md
  R110, 60_exceptions.md R233). Safe. -/
  | engineFaulted (e : ErrorKind)
  deriving DecidableEq, Repr

/-- Why the model gives an instruction no meaning. -/
inductive Refusal where
  /-- Raised by an arm of `exec` whose instruction has no meaning yet; no arm does. Safe. -/
  | notModelled (mnemonic : String)
  deriving DecidableEq, Repr

/-- The machine right after reset (10_state.md R39), with nothing loaded: the empty image, no input, every
allocation request granted. `State.boot` is reset for any image, input and allocation oracle (log 1, 2, 3). -/
def State.reset : State where
  regs := Vector.replicate Config.nregs 0#32
  pc := 0#32
  status := .running
  fault := none
  mem := { slots := [some { len := 0, cells := [] }], free := [] }
  inPos := 0
  out := []
  input := []
  allocOracle := { otherwise := true, exceptions := [] }

end Sys2Proof.Machine
end

