-- ==== Sys2Proof/Machine/Memory.lean ====
section
/-! DEFINITION. The Array Heap's operations (20_memory.md, 45_heap_management.md): reading and writing one
word, allocation, deallocation, replacing the program. Every operation keeps the canonical form `Memory.wf`. -/

namespace Sys2Proof.Machine

/-- The word listed at index `i`, or 0. -/
def cellAt : List (Nat × Word) → Nat → Word
  | [], _ => 0#32
  | (k, v) :: rest, i => if k = i then v else cellAt rest i

/-- `(i, v)` placed before the first cell with a greater index. -/
def insertCell (i : Nat) (v : Word) : List (Nat × Word) → List (Nat × Word)
  | [] => [(i, v)]
  | (k, u) :: rest => if i < k then (i, v) :: (k, u) :: rest else (k, u) :: insertCell i v rest

/-- The cells with index `i` made to read as `v`: a zero is listed nowhere. -/
def setCell (cells : List (Nat × Word)) (i : Nat) (v : Word) : List (Nat × Word) :=
  if v = 0#32 then cells.filter (fun c => c.1 ≠ i) else insertCell i v (cells.filter (fun c => c.1 ≠ i))

/-- The non-zero words of a sequence, with their indices from `k` on. -/
def cellsFrom : Nat → List Word → List (Nat × Word)
  | _, [] => []
  | k, w :: ws => if w = 0#32 then cellsFrom (k + 1) ws else (k, w) :: cellsFrom (k + 1) ws

/-- The word at index `i` of an array. -/
def WordArray.get (a : WordArray) (i : Nat) : Word := cellAt a.cells i

/-- The array with the word at index `i` replaced; its length is unchanged. -/
def WordArray.set (a : WordArray) (i : Nat) (v : Word) : WordArray :=
  { a with cells := setCell a.cells i v }

/-- A new array of `n` words, all zero (45_heap_management.md R165, R166; 20_memory.md R65). -/
def WordArray.zeros (n : Nat) : WordArray := { len := n, cells := [] }

/-- The array that holds a sequence of words. -/
def WordArray.ofWords (ws : List Word) : WordArray := { len := ws.length, cells := cellsFrom 0 ws }

/-- The canonical form of an array: fewer than 2^32 words (10_state.md R30), indices strictly rising and below
the length, no zero listed. Equal arrays are equal data. -/
abbrev WordArray.wf (a : WordArray) : Prop :=
  a.len < Config.wordCount ∧ a.cells.Pairwise (fun p q => p.1 < q.1) ∧
    ∀ c ∈ a.cells, c.1 < a.len ∧ c.2 ≠ 0#32

/-- The canonical form of the heap: every array is in canonical form. -/
abbrev Memory.wf (m : Memory) : Prop := ∀ o ∈ m.slots, ∀ a ∈ o, WordArray.wf a

/-- The array at a handle; none when the handle is out of range or its slot is empty (10_state.md R31). -/
def Memory.array? (m : Memory) (h : Word) : Option WordArray := (m.slots[h.toNat]?).getD none

/-- `live(h)`: the handle is in range and its slot holds an array (10_state.md R31). -/
def Memory.live (m : Memory) (h : Word) : Bool := (m.array? h).isSome

/-- `len(h)`, the number of words of the array at a live handle (00_scope.md R11). A handle that is not live
has no length; the number given then is below no index. -/
def Memory.len (m : Memory) (h : Word) : Nat :=
  match m.array? h with
  | some a => a.len
  | none => 0

/-- `MemRead((h, i), 1)` behind the check of 20_memory.md R57: none when `h` is not live or `i ≥ len(h)`.
A read changes nothing (R56). -/
def Memory.read (m : Memory) (h i : Word) : Option Word :=
  match m.array? h with
  | some a => if i.toNat < a.len then some (a.get i.toNat) else none
  | none => none

/-- `MemWrite((h, i), 1, v)` behind the check of 20_memory.md R57: none when `h` is not live or `i ≥ len(h)`.
Only the one word changes (42_array_access.md R139). -/
def Memory.write (m : Memory) (h i v : Word) : Option Memory :=
  match m.array? h with
  | some a =>
    if i.toNat < a.len then some { m with slots := m.slots.set h.toNat (some (a.set i.toNat v)) } else none
  | none => none

/-- `HeapAlloc(n)` (45_heap_management.md R166), `ok` being AllocOK's answer: the most recently freed handle
is reused, else one slot is appended; none is AllocationFailure. Growth is refused when the new handle would
not fit a word (R168). -/
def Memory.heapAlloc (m : Memory) (ok : Bool) (n : Word) : Option (Word × Memory) :=
  if ok then
    match m.free with
    | h :: rest =>
      some (h, { slots := m.slots.set h.toNat (some (WordArray.zeros n.toNat)), free := rest })
    | [] =>
      if m.slots.length < Config.wordCount then
        some (BitVec.ofNat 32 m.slots.length,
          { slots := m.slots ++ [some (WordArray.zeros n.toNat)], free := [] })
      else none
  else none

/-- `HeapFree(h)` (45_heap_management.md R170): the slot is cleared and the handle pushed. -/
def Memory.heapFree (m : Memory) (h : Word) : Memory :=
  { slots := m.slots.set h.toNat none, free := h :: m.free }

/-- Array 0 replaced by an array (10_state.md R38, heap replace program; 47_load_program.md R200). Handle 0 is
"replaced, not freed": `free` and the number of slots are unchanged. -/
def Memory.setProgram (m : Memory) (a : WordArray) : Memory :=
  { m with slots := m.slots.set 0 (some a) }

/-- The oracle's answer to a request of `n` words on heap `m` (00_scope.md R9; log 3). -/
def AllocOracle.answer (o : AllocOracle) (m : Memory) (n : Nat) : Bool :=
  if (m, n) ∈ o.exceptions then !o.otherwise else o.otherwise

end Sys2Proof.Machine
end

