-- ==== Sys2Proof/Machine/Flags.lean ====
section
/-! DEFINITION. The machine has no flags, condition codes or predicate registers (10_state.md R28). This file
holds what stands in their place: the tests on register values that decide what an instruction does. -/

namespace Sys2Proof.Machine

/-- ConditionalMove's condition: all 32 bits against zero (41_conditional_move.md R130). Division and
LoadProgram test their operand the same way (43_arithmetic_logic.md R151, 47_load_program.md R200). -/
def nonZero (w : Word) : Bool := w ≠ 0#32

/-- Output's range check: the value is a valid byte (46_io.md R185). -/
def isByte (w : Word) : Bool := w.toNat ≤ Config.byteMax

end Sys2Proof.Machine
end

