-- ==== Sys2Proof/Machine/Operands.lean ====
section
/-! DEFINITION. Operands: every operand of every instruction is a register named by a selector, but for
Orthography's immediate, which the decoder extends (30_encoding.md R85). There are no addressing modes: a heap
address is a pair of registers, with no arithmetic done on it (42_array_access.md R135, R139). -/

namespace Sys2Proof.Machine

/-- `x[r]` (00_scope.md R11). No register is hard-wired (10_state.md R20). -/
def State.reg (s : State) (r : Sel) : Word := s.regs[r]

/-- `x[r] <- v` (00_scope.md R11). -/
def State.setReg (s : State) (r : Sel) (v : Word) : State := { s with regs := s.regs.set r v }

end Sys2Proof.Machine
end

