-- ==== Sys2Proof/Machine/Ops.lean ====
section
/-! DEFINITION. The named operations over the state that the instructions share: raising a fatal error, the
streams, the program counter, the fetch; and the host's side: image load, reset, what the host observes. -/

namespace Sys2Proof.Machine

/-! ### The program counter and the fetch -/

/-- `pc <- t` (00_scope.md R11). -/
def State.setPc (s : State) (t : Word) : State := { s with pc := t }

/-- The heap replaced as a whole by the result of one of its operations. -/
def State.setMem (s : State) (m : Memory) : State := { s with mem := m }

/-- Stages 1 and 2 of a step: the word at `(0, pc)`, none when `pc ≥ len(0)` (40_execution_engine.md R111,
R112). It reads array 0 as it is now (20_memory.md R63). -/
def State.fetch (s : State) : Option Word := s.mem.read 0#32 s.pc

/-- The increment of stage 2, before dispatch (40_execution_engine.md R112). It never wraps on a state that a
run reaches; it is written modulo 2^32, as 10_state.md R25 allows. -/
def State.advance (s : State) : State := s.setPc (s.pc + 1#32)

/-! ### Fatal errors -/

/-- The numeric code of an error kind (60_exceptions.md R222). -/
def ErrorKind.code : ErrorKind → Nat
  | .invalidOpcode => 1
  | .outOfBoundsAccess => 2
  | .divisionByZero => 3
  | .invalidOutputByte => 4
  | .programCounterOverrun => 5
  | .allocationFailure => 6

/-- `raise E(addr, word)` (60_exceptions.md R230): the status and the fault record are written, nothing else.
Control goes nowhere: there is no vector, no handler and no return (R233). -/
def State.fail (s : State) (e : ErrorKind) (addr word : Word) : State :=
  { s with status := .faulted e, fault := some { kind := e, addr := addr, word := word } }

/-- `raise E` inside a handler: `addr` is the fetch address, `word` the fetched word (40_execution_engine.md
R116). A handler runs with `pc` one past its own word and raises before it writes, so both are read back from
`pc` and array 0 (log 5). -/
def State.raise (s : State) (e : ErrorKind) : State :=
  s.fail e (s.pc - 1#32) ((s.mem.read 0#32 (s.pc - 1#32)).getD 0#32)

/-- `status <- Halted` (44_halt.md R160). -/
def State.halt (s : State) : State := { s with status := .halted }

/-! ### Allocation requests -/

/-- AllocOK's answer to a request of `n` words on the current heap (45_heap_management.md R168). -/
def State.allocOK (s : State) (n : Nat) : Bool := s.allocOracle.answer s.mem n

/-! ### Streams -/

/-- `OutputWrite(b)`: one byte is appended; the sink always accepts (46_io.md R186). -/
def State.outputWrite (s : State) (b : Byte) : State := { s with out := s.out ++ [b] }

/-- What `InputRead()` returns: the next byte, or none at end-of-stream, which every later read reports too
(46_io.md R190). -/
def State.inputByte (s : State) : Option Byte := s.input[s.inPos]?

/-- One input byte consumed (46_io.md R190). -/
def State.inputAdvance (s : State) : State := { s with inPos := s.inPos + 1 }

/-- A byte widened to a word: zero extension (46_io.md R189). -/
def widenByte (b : Byte) : Word := b.setWidth 32

/-- The byte `v[7:0]` (46_io.md R185). -/
def lowByte (v : Word) : Byte := v.extractLsb' 0 8

/-! ### The host's side -/

/-- Four bytes in file order as one big-endian word (20_memory.md R54). -/
def wordOfBytes (b0 b1 b2 b3 : Byte) : Word := b0 ++ b1 ++ b2 ++ b3

/-- The words of a byte sequence; none when its length is no multiple of 4 (70_reset_and_hazards.md R262,
R264). -/
def wordsOfBytes : List Byte → Option (List Word)
  | [] => some []
  | b0 :: b1 :: b2 :: b3 :: rest => (wordsOfBytes rest).map (wordOfBytes b0 b1 b2 b3 :: ·)
  | _ => none

/-- The image the loader delivers for a file (70_reset_and_hazards.md R262): no header, nothing validated. A
file whose size is no multiple of 4, or of 2^32 words or more, is rejected (R263, R264; log 12). -/
def imageOfBytes (f : List Byte) : Option (List Word) :=
  match wordsOfBytes f with
  | some ws => if ws.length < Config.wordCount then some ws else none
  | none => none

/-- Reset with an image, an input stream and an allocation oracle (70_reset_and_hazards.md R260, 10_state.md
R39). Nothing of an earlier run survives (R261). -/
def State.boot (image : List Word) (input : List Byte) (oracle : AllocOracle) : State where
  regs := Vector.replicate Config.nregs 0#32
  pc := 0#32
  status := .running
  fault := none
  mem := { slots := [some (WordArray.ofWords image)], free := [] }
  inPos := 0
  out := []
  input := input
  allocOracle := oracle

/-- Reset from an image file; none when the loader rejects it and reset does not complete
(70_reset_and_hazards.md R264). -/
def State.bootBytes (file : List Byte) (input : List Byte) (oracle : AllocOracle) : Option State :=
  (imageOfBytes file).map (fun image => State.boot image input oracle)

/-- The fault record as the host sees it: `(code, addr, word)` (10_state.md R27). -/
def FaultRecord.triple (f : FaultRecord) : Nat × Word × Word := (f.kind.code, f.addr, f.word)

/-- What the host observes: the status, the fault record, the output (40_execution_engine.md R118, 10_state.md
R27). -/
def State.observe (s : State) : Status × Option (Nat × Word × Word) × List Byte :=
  (s.status, s.fault.map FaultRecord.triple, s.out)

/-- The array an instruction word is placed in, for a fetch at index `i`: the array at handle 0, made long
enough, with the word at `i`. -/
def Memory.placeWord (m : Memory) (i : Nat) (w : Word) : Memory :=
  let a := (m.array? 0#32).getD (WordArray.zeros 0)
  let a' : WordArray := { len := max a.len (i + 1), cells := setCell a.cells i w }
  match m.slots with
  | [] => { m with slots := [some a'] }
  | _ :: rest => { m with slots := some a' :: rest }

/-- The state with an instruction word stored at `(0, pc)`, where the next step fetches, and the engine
running (log 13). -/
def State.placeAtPc (s : State) (w : Word) : State :=
  { s with mem := s.mem.placeWord s.pc.toNat w, status := .running, fault := none }

end Sys2Proof.Machine
end

