-- ==== Sys2Proof/Machine/ArithmeticLogic.lean ====
section
/-! DEFINITION. Addition, Multiplication, Division, NotAnd (43_arithmetic_logic.md): unsigned 32-bit, no
overflow indication of any kind (R158). -/

namespace Sys2Proof.Machine

/-- The exact sum reduced modulo 2^32 (R145). -/
def addWords (u v : Word) : Word := BitVec.ofNat 32 (u.toNat + v.toNat)

/-- The low 32 bits of the exact product (R148). -/
def mulWords (u v : Word) : Word := BitVec.ofNat 32 (u.toNat * v.toNat)

/-- The floor of the unsigned quotient, for a divisor that is not 0 (R151). -/
def divWords (u v : Word) : Word := BitVec.ofNat 32 (u.toNat / v.toNat)

/-- The complement of the bitwise and (R155). -/
def nandWords (u v : Word) : Word := ~~~(u &&& v)

/-- Addition (R145). -/
def execAdd (a b c : Sel) (s : State) : Host.Outcome State Fault Refusal :=
  .next (s.setReg a (addWords (s.reg b) (s.reg c)))

/-- Multiplication (R148). -/
def execMul (a b c : Sel) (s : State) : Host.Outcome State Fault Refusal :=
  .next (s.setReg a (mulWords (s.reg b) (s.reg c)))

/-- Division (R151): DivisionByZero when `x[C] = 0`. -/
def execDiv (a b c : Sel) (s : State) : Host.Outcome State Fault Refusal :=
  .next (if nonZero (s.reg c) then s.setReg a (divWords (s.reg b) (s.reg c)) else s.raise .divisionByZero)

/-- NotAnd (R155). -/
def execNand (a b c : Sel) (s : State) : Host.Outcome State Fault Refusal :=
  .next (s.setReg a (nandWords (s.reg b) (s.reg c)))

end Sys2Proof.Machine
end

