-- ==== Sys2Proof/Machine/ArrayAccess.lean ====
section
/-! DEFINITION. ArrayIndex and ArrayAmendment (42_array_access.md). -/

namespace Sys2Proof.Machine

/-- ArrayIndex (R135): `x[A] <- heap[x[B]][x[C]]`, else OutOfBoundsAccess. -/
def execAidx (a b c : Sel) (s : State) : Host.Outcome State Fault Refusal :=
  .next (match s.mem.read (s.reg b) (s.reg c) with
    | some v => s.setReg a v
    | none => s.raise .outOfBoundsAccess)

/-- ArrayAmendment (R139): `heap[x[A]][x[B]] <- x[C]`, else OutOfBoundsAccess. -/
def execAmend (a b c : Sel) (s : State) : Host.Outcome State Fault Refusal :=
  .next (match s.mem.write (s.reg a) (s.reg b) (s.reg c) with
    | some m => s.setMem m
    | none => s.raise .outOfBoundsAccess)

end Sys2Proof.Machine
end

