-- ==== Sys2Proof/Machine/ConditionalMove.lean ====
section
/-! DEFINITION. ConditionalMove (41_conditional_move.md). -/

namespace Sys2Proof.Machine

/-- ConditionalMove (R130): `x[A] <- x[B]` when `x[C] ≠ 0`. -/
def execCmov (a b c : Sel) (s : State) : Host.Outcome State Fault Refusal :=
  .next (if nonZero (s.reg c) then s.setReg a (s.reg b) else s)

end Sys2Proof.Machine
end

