-- ==== Sys2Proof/Machine/Halt.lean ====
section
/-! DEFINITION. Halt (44_halt.md). -/

namespace Sys2Proof.Machine

/-- Halt (R160): `status <- Halted`, nothing else. -/
def execHalt (s : State) : Host.Outcome State Fault Refusal := .next s.halt

end Sys2Proof.Machine
end

