-- ==== Sys2Proof/Machine/HeapManagement.lean ====
section
/-! DEFINITION. Allocation and Abandonment (45_heap_management.md). -/

namespace Sys2Proof.Machine

/-- Allocation (R165): `x[B]` receives the handle of a new array of `x[C]` zero words, else
AllocationFailure. AllocOK is asked once (R168). -/
def execAlloc (b c : Sel) (s : State) : Host.Outcome State Fault Refusal :=
  .next (match s.mem.heapAlloc (s.allocOK (s.reg c).toNat) (s.reg c) with
    | some (h, m) => (s.setMem m).setReg b h
    | none => s.raise .allocationFailure)

/-- Abandonment (R169): the array at `x[C]` is freed; OutOfBoundsAccess when the handle is 0 (R171) or not
live. -/
def execAband (c : Sel) (s : State) : Host.Outcome State Fault Refusal :=
  .next (if s.reg c ≠ 0#32 ∧ s.mem.live (s.reg c) then s.setMem (s.mem.heapFree (s.reg c))
    else s.raise .outOfBoundsAccess)

end Sys2Proof.Machine
end

