-- ==== Sys2Proof/Machine/InputOutput.lean ====
section
/-! DEFINITION. Output and Input (46_io.md). -/

namespace Sys2Proof.Machine

/-- Output (R185): the byte `x[C]` is emitted; InvalidOutputByte when `x[C] > 255`. -/
def execOut (c : Sel) (s : State) : Host.Outcome State Fault Refusal :=
  .next (if isByte (s.reg c) then s.outputWrite (lowByte (s.reg c)) else s.raise .invalidOutputByte)

/-- Input (R189): `x[C]` receives the next byte, zero-extended, or 0xFFFFFFFF at end-of-stream. -/
def execInp (c : Sel) (s : State) : Host.Outcome State Fault Refusal :=
  .next (match s.inputByte with
    | some b => s.inputAdvance.setReg c (widenByte b)
    | none => s.setReg c Config.eofValue)

end Sys2Proof.Machine
end

