-- ==== Sys2Proof/Machine/LoadProgram.lean ====
section
/-! DEFINITION. LoadProgram, the only control transfer (47_load_program.md). -/

namespace Sys2Proof.Machine

/-- LoadProgram (R200): with `x[B] = 0` a pure jump; otherwise array 0 becomes a copy of array `x[B]`, then
`pc <- x[C]`. In this order, and before any change: OutOfBoundsAccess when `x[B]` is not live or its length is
0 (R201), AllocationFailure when the storage for the copy cannot be had. The target is not checked (R202). -/
def execLoadp (b c : Sel) (s : State) : Host.Outcome State Fault Refusal :=
  .next (if nonZero (s.reg b) then
      match s.mem.array? (s.reg b) with
      | none => s.raise .outOfBoundsAccess
      | some a =>
        if a.len = 0 then s.raise .outOfBoundsAccess
        else if s.allocOK a.len then (s.setMem (s.mem.setProgram a)).setPc (s.reg c)
        else s.raise .allocationFailure
    else s.setPc (s.reg c))

end Sys2Proof.Machine
end

