-- ==== Sys2Proof/Machine/Orthography.lean ====
section
/-! DEFINITION. Orthography, the immediate load (48_orthography.md). -/

namespace Sys2Proof.Machine

/-- Orthography (R210): `x[R]` receives the zero-extended immediate. -/
def execOrth (r : Sel) (imm : Word) (s : State) : Host.Outcome State Fault Refusal :=
  .next (s.setReg r imm)

end Sys2Proof.Machine
end

