-- ==== Sys2Proof/Machine/Dispatch.lean ====
section
/-! DEFINITION. Stage 4 of a step, dispatch: one handler per operation (40_execution_engine.md R114). -/

namespace Sys2Proof.Machine

/-- The handler of an instruction, run with `pc` already incremented (R112, R114). -/
def exec (i : Instr) (s : State) : Host.Outcome State Fault Refusal :=
  match i with
  | .cmov a b c => Sys2Proof.Machine.execCmov a b c s
  | .aidx a b c => Sys2Proof.Machine.execAidx a b c s
  | .amend a b c => Sys2Proof.Machine.execAmend a b c s
  | .add a b c => Sys2Proof.Machine.execAdd a b c s
  | .mul a b c => Sys2Proof.Machine.execMul a b c s
  | .div a b c => Sys2Proof.Machine.execDiv a b c s
  | .nand a b c => Sys2Proof.Machine.execNand a b c s
  | .halt _ _ _ => Sys2Proof.Machine.execHalt s
  | .alloc _ b c => Sys2Proof.Machine.execAlloc b c s
  | .aband _ _ c => Sys2Proof.Machine.execAband c s
  | .out _ _ c => Sys2Proof.Machine.execOut c s
  | .inp _ _ c => Sys2Proof.Machine.execInp c s
  | .loadp _ b c => Sys2Proof.Machine.execLoadp b c s
  | .orth r imm => Sys2Proof.Machine.execOrth r imm s

end Sys2Proof.Machine
end

