-- ==== Sys2Proof/Machine/Step.lean ====
section
/-! DEFINITION. The step of the Execution Engine (40_execution_engine.md R110 to R116). -/

namespace Sys2Proof.Machine

/-- One step. Defined only while Running (R110); then stage 1, range check (R111); stage 2, fetch and increment
(R112); stage 3, decode (R113); stage 4, dispatch (R114). -/
def step (s : State) : Host.Outcome State Fault Refusal :=
  match s.status with
  | .halted => .fault .engineHalted
  | .faulted e => .fault (.engineFaulted e)
  | .running =>
    match s.fetch with
    | none => .next (s.fail .programCounterOverrun s.pc 0#32)
    | some w =>
      match decode w with
      | .error _ => .next (s.advance.fail .invalidOpcode s.pc w)
      | .ok i => exec i s.advance

/-- The state with the instruction whose bits are `w` stored where `step` fetches next (log 1, 13). -/
def State.withFetchWord (s : State) (nbits w : Nat) : State := s.placeAtPc (tableWord nbits w)

end Sys2Proof.Machine
end

