-- ==== Sys2Proof/Safety.lean ====
section
/-! DEFINITION. The terms the statements use: what a safe run is, the invariants of a run, what an instruction
leaves alone, and when the spec says each error is raised. -/

namespace Sys2Proof.Machine

/-! ### Safe runs -/

/-- The engine was stopped by a fatal error (60_exceptions.md R230). -/
def State.failed (s : State) : Prop := ∃ e, s.status = .faulted e

/-- No state of the first `k` steps from `s` is a failed one (40_execution_engine.md R117). -/
def SafeFor (k : Nat) (s : State) : Prop :=
  ∀ j t, j ≤ k → Host.Core.run Sys2Proof.core j s = .next t → ¬ t.failed

/-! ### Invariants -/

/-- The heap invariants (10_state.md R33). (a) A handle below the number of slots is live or free, never both,
never neither. (b) A free handle is below the number of slots and occurs once. (c) Handle 0 is live and not
free. (d) There are at most 2^32 slots. -/
def Memory.consistent (m : Memory) : Prop :=
  (∀ h : Word, h.toNat < m.slots.length → (m.live h = true ↔ h ∉ m.free)) ∧
  ((∀ h ∈ m.free, h.toNat < m.slots.length) ∧ m.free.Nodup) ∧
  (m.live 0#32 = true ∧ 0#32 ∉ m.free) ∧
  m.slots.length ≤ 2 ^ 32

/-- The fault record stands exactly when the status is `Faulted`, and names the same kind (10_state.md R27).
After ProgramCounterOverrun `pc` is the record's address and its word is 0; after any other error `pc` is one
past the address, where array 0 still holds the word (60_exceptions.md R224, R231, R232). -/
def State.engineConsistent (s : State) : Prop :=
  match s.status with
  | .running => s.fault = none
  | .halted => s.fault = none
  | .faulted e =>
    ∃ f, s.fault = some f ∧ f.kind = e ∧
      (e = .programCounterOverrun → s.pc = f.addr ∧ f.word = 0#32 ∧ s.mem.len 0#32 ≤ f.addr.toNat) ∧
      (e ≠ .programCounterOverrun → s.pc = f.addr + 1 ∧ s.mem.read 0#32 f.addr = some f.word)

/-- What every run keeps: the heap's canonical form, the heap invariants of 10_state.md R33, the engine's
status and fault record in step (R27), no more input consumed than there is (R34). -/
def State.Inv (s : State) : Prop :=
  s.mem.wf ∧ s.mem.consistent ∧ s.engineConsistent ∧ s.inPos ≤ s.input.length

/-! ### Words, read by place value -/

/-- `w[lo + n - 1 : lo]` as an unsigned integer (00_scope.md R10). -/
def bits (w : Word) (lo n : Nat) : Nat := w.toNat / 2 ^ lo % 2 ^ n

/-- The three-bit selector at bit `lo`. -/
def selAt (w : Word) (lo : Nat) : Sel := ⟨bits w lo 3, Nat.mod_lt _ (by decide)⟩

/-- Every word with this tag, whatever its bits 27 to 9, is this three-register instruction
(30_encoding.md R82, R83, R90). -/
def DecodesR3 (tag : Nat) (mk : Sel → Sel → Sel → Instr) : Prop :=
  ∀ w : Word, bits w 28 4 = tag → decode w = .ok (mk (selAt w 6) (selAt w 3) (selAt w 0))

/-! ### What an instruction leaves alone -/

/-- Every register but those listed holds what it held. -/
def SameRegsBut (rs : List Sel) (s t : State) : Prop := ∀ r, r ∉ rs → t.reg r = s.reg r

/-- The heap is untouched: its topology, and every word at every address. -/
def SameHeap (s t : State) : Prop := t.mem = s.mem ∧ ∀ h i, t.mem.read h i = s.mem.read h i

/-- The array at a handle is untouched: live or not as before, its length, every word. -/
def SameArray (h : Word) (s t : State) : Prop :=
  t.mem.live h = s.mem.live h ∧ t.mem.len h = s.mem.len h ∧ ∀ i, t.mem.read h i = s.mem.read h i

/-- The program counter, status and fault record are untouched. -/
def SameEngine (s t : State) : Prop := t.pc = s.pc ∧ t.status = s.status ∧ t.fault = s.fault

/-- Both streams are untouched. -/
def SameStreams (s t : State) : Prop := t.inPos = s.inPos ∧ t.out = s.out

/-- The environment's parameters are the same (00_scope.md R9). -/
def SameParams (s t : State) : Prop := t.input = s.input ∧ t.allocOracle = s.allocOracle

/-- Everything but the registers is untouched. -/
def SameButRegs (s t : State) : Prop :=
  SameEngine s t ∧ SameHeap s t ∧ SameStreams s t ∧ SameParams s t

/-- `raise e` inside a handler, as the next state (60_exceptions.md R230, R231): the status and the record's
kind are the error's, everything else but the rest of the record is untouched. -/
def Raised (e : ErrorKind) (s t : State) : Prop :=
  t.status = .faulted e ∧ (∃ f, t.fault = some f ∧ f.kind = e) ∧ t.pc = s.pc ∧
    SameRegsBut [] s t ∧ SameHeap s t ∧ SameStreams s t ∧ SameParams s t

/-! ### The registers an instruction reads and writes (10_state.md R21) -/

/-- The same state with another register file. -/
def State.withRegs (s : State) (regs : Vector Word Config.nregs) : State := { s with regs := regs }

/-- The registers an operation reads. -/
def Instr.reads : Instr → List Sel
  | .cmov _ b c => [b, c]
  | .aidx _ b c => [b, c]
  | .amend a b c => [a, b, c]
  | .add _ b c => [b, c]
  | .mul _ b c => [b, c]
  | .div _ b c => [b, c]
  | .nand _ b c => [b, c]
  | .halt _ _ _ => []
  | .alloc _ _ c => [c]
  | .aband _ _ c => [c]
  | .out _ _ c => [c]
  | .inp _ _ _ => []
  | .loadp _ b c => [b, c]
  | .orth _ _ => []

/-- The registers an operation may write. -/
def Instr.writes : Instr → List Sel
  | .cmov a _ _ => [a]
  | .aidx a _ _ => [a]
  | .amend _ _ _ => []
  | .add a _ _ => [a]
  | .mul a _ _ => [a]
  | .div a _ _ => [a]
  | .nand a _ _ => [a]
  | .halt _ _ _ => []
  | .alloc _ b _ => [b]
  | .aband _ _ _ => []
  | .out _ _ _ => []
  | .inp _ _ c => [c]
  | .loadp _ _ _ => []
  | .orth r _ => [r]

/-! ### When each error is raised (60_exceptions.md R221) -/

/-- The address `(h, i)` is not valid (20_memory.md R50, R57). -/
def BadAddress (s : State) (h i : Word) : Prop := s.mem.live h = false ∨ s.mem.len h ≤ i.toNat

/-- The next step would run this instruction. -/
def Runs (s : State) (i : Instr) : Prop := ∃ w, s.mem.read 0#32 s.pc = some w ∧ decode w = .ok i

/-- The exact condition of the table of 60_exceptions.md R221 for each error kind, on the state before the
step. -/
def ErrorCause (s : State) : ErrorKind → Prop
  | .invalidOpcode => ∃ w, s.mem.read 0#32 s.pc = some w ∧ 14 ≤ bits w 28 4
  | .outOfBoundsAccess =>
    (∃ a b c, Runs s (.aidx a b c) ∧ BadAddress s (s.reg b) (s.reg c)) ∨
    (∃ a b c, Runs s (.amend a b c) ∧ BadAddress s (s.reg a) (s.reg b)) ∨
    (∃ a b c, Runs s (.aband a b c) ∧ (s.reg c = 0#32 ∨ s.mem.live (s.reg c) = false)) ∨
    (∃ a b c, Runs s (.loadp a b c) ∧ s.reg b ≠ 0#32 ∧
      (s.mem.live (s.reg b) = false ∨ s.mem.len (s.reg b) = 0))
  | .divisionByZero => ∃ a b c, Runs s (.div a b c) ∧ s.reg c = 0#32
  | .invalidOutputByte => ∃ a b c, Runs s (.out a b c) ∧ 255 < (s.reg c).toNat
  | .programCounterOverrun => s.mem.len 0#32 ≤ s.pc.toNat
  | .allocationFailure =>
    (∃ a b c, Runs s (.alloc a b c) ∧
      (s.allocOK (s.reg c).toNat = false ∨ (s.mem.free = [] ∧ s.mem.slots.length = 2 ^ 32))) ∨
    (∃ a b c, Runs s (.loadp a b c) ∧ s.reg b ≠ 0#32 ∧ s.mem.live (s.reg b) = true ∧
      s.mem.len (s.reg b) ≠ 0 ∧ s.allocOK (s.mem.len (s.reg b)) = false)

end Sys2Proof.Machine
end

