-- ==== Sys2Proof/Certificates/Slice0/Obligations.lean ====
section
/-! DEFINITION. The statements for the provers, each with the rule of spec/ it rests on. OBLIGATIONS.json lists
them. In an instruction's statement `s` is the state its handler is entered in, `pc` already incremented
(40_execution_engine.md R112). The tag numbers in the encoding clauses are the spec's decision D1 (log 8). -/

open Sys2Proof Sys2Proof.Machine

/-! ### Encoding -/

/-- 30_encoding.md R91: `Decode(Encode(d)) = d` for every valid `d`; the canonical word of what `w` decodes to is
`tag * 2^28 + A * 64 + B * 8 + C`, or `13 * 2^28 + r * 2^25 + imm`; it agrees with `w` on bits 31 to 28 and 8 to 0
for three-register words and on all 32 bits for immediate words. -/
def Obligations.DecodeAndEncodeAgree : Prop :=
  (∀ i : Instr, i.wellFormed = true → decode (encode i) = .ok i) ∧
  (∀ (w : Word) (i : Instr), decode w = .ok i →
    (bits w 28 4 ≠ 13 →
      (encode i).toNat = bits w 28 4 * 2 ^ 28 + (selAt w 6).val * 64 + (selAt w 3).val * 8 + (selAt w 0).val ∧
      bits (encode i) 28 4 = bits w 28 4 ∧ bits (encode i) 0 9 = bits w 0 9) ∧
    (bits w 28 4 = 13 →
      (encode i).toNat = 13 * 2 ^ 28 + (selAt w 25).val * 2 ^ 25 + bits w 0 25 ∧ encode i = w))

/-- 30_encoding.md R90: `Decode` reads tag, selectors and immediate from their bit positions, for all 2^32
words, with the operations of R86 (tag numbers: the spec's decision D1, log 8). -/
def Obligations.DecodeReadsItsFields : Prop :=
  DecodesR3 0 .cmov ∧ DecodesR3 1 .aidx ∧ DecodesR3 2 .amend ∧ DecodesR3 3 .add ∧ DecodesR3 4 .mul ∧
  DecodesR3 5 .div ∧ DecodesR3 6 .nand ∧ DecodesR3 7 .halt ∧ DecodesR3 8 .alloc ∧ DecodesR3 9 .aband ∧
  DecodesR3 10 .out ∧ DecodesR3 11 .inp ∧ DecodesR3 12 .loadp ∧
  (∀ w : Word, bits w 28 4 = 13 → ∃ imm : Word, imm.toNat = bits w 0 25 ∧ decode w = .ok (.orth (selAt w 25) imm)) ∧
  (∀ w : Word, 14 ≤ bits w 28 4 → ∃ e, decode w = .error e)

/-- 30_encoding.md R87, 40_execution_engine.md R113: exactly the words from 0xE0000000 up are illegal; the
engine raises InvalidOpcode for one after the program counter has been incremented, and changes no register,
heap word or stream. -/
def Obligations.InvalidWordsRaiseInvalidOpcode : Prop :=
  (∀ w : Word, (∃ e, decode w = .error e) ↔ 0xE0000000 ≤ w.toNat) ∧
  ∀ (s : State) (w : Word), s.status = .running → s.mem.read 0#32 s.pc = some w → 0xE0000000 ≤ w.toNat →
    ∃ t, step s = .next t ∧ t.status = .faulted .invalidOpcode ∧
      t.fault = some { kind := .invalidOpcode, addr := s.pc, word := w } ∧ t.pc = s.pc + 1#32 ∧
      SameRegsBut [] s t ∧ SameHeap s t ∧ SameStreams s t ∧ SameParams s t

/-- 30_encoding.md R83 (the spec's decision D2) and R88: bits 27 to 9 of a three-register word have no part in
decoding, and the selectors an operation does not use have no effect. -/
def Obligations.IgnoredBitsHaveNoEffect : Prop :=
  (∀ w v : Word, bits w 28 4 < 13 → bits w 28 4 = bits v 28 4 → bits w 0 9 = bits v 0 9 → decode w = decode v) ∧
  (∀ (w v : Word) (i j : Instr) (s : State), decode w = .ok i → decode v = .ok j → bits w 28 4 = bits v 28 4 →
    (bits w 28 4 = 7 ∨ ((bits w 28 4 = 8 ∨ bits w 28 4 = 12) ∧ bits w 0 6 = bits v 0 6) ∨
      ((bits w 28 4 = 9 ∨ bits w 28 4 = 10 ∨ bits w 28 4 = 11) ∧ bits w 0 3 = bits v 0 3)) →
    exec i s = exec j s)

/-- Nine words of 95_test_vectors.md (Part 2: V1, V3, V6, V7) decode to the instructions they stand for, and a
tenth (V1), with tag 14, is invalid. The tag numbers are the spec's decision D1 (log 8); that the middle bits of
0x3FFFFE53 are ignored is its decision D2 (log 9). -/
def Obligations.SpecWordsDecode : Prop :=
  decode 0x00000053 = .ok (.cmov 1 2 3) ∧ decode 0x1000013B = .ok (.aidx 4 7 3) ∧
  decode 0x200000AC = .ok (.amend 2 5 4) ∧ decode 0x3FFFFE53 = .ok (.add 1 2 3) ∧
  decode 0x7FFFFFFF = .ok (.halt 7 7 7) ∧ decode 0x80000011 = .ok (.alloc 0 2 1) ∧
  decode 0xB0000001 = .ok (.inp 0 0 1) ∧ decode 0xC0000017 = .ok (.loadp 0 2 7) ∧
  decode 0xDA0001FF = .ok (.orth 5 511) ∧ decode 0xE0000000 = .error (.invalidOperation 14)

/-! ### The step -/

/-- 40_execution_engine.md R112, R114, R116: while Running, when the word at `(0, pc)` decodes to `i`, the step
is the handler of `i` on the state with `pc` incremented and nothing else changed; the decoded instruction is
well formed. -/
def Obligations.StepRunsTheDecodedInstruction : Prop :=
  ∀ (s : State) (w : Word) (i : Instr), s.status = .running → s.mem.read 0#32 s.pc = some w → decode w = .ok i →
    i.wellFormed = true ∧ step s = exec i { s with pc := s.pc + 1#32 }

/-- 40_execution_engine.md R111: when `pc ≥ len(0)` the step raises ProgramCounterOverrun with `addr = pc` and
`word = 0`; nothing is fetched and `pc` is not incremented. -/
def Obligations.RunningOffTheEndFaults : Prop :=
  ∀ s : State, s.status = .running → s.mem.len 0#32 ≤ s.pc.toNat →
    ∃ t, step s = .next t ∧ t.status = .faulted .programCounterOverrun ∧
      t.fault = some { kind := .programCounterOverrun, addr := s.pc, word := 0#32 } ∧ t.pc = s.pc ∧
      SameRegsBut [] s t ∧ SameHeap s t ∧ SameStreams s t ∧ SameParams s t

/-- 10_state.md R26, 40_execution_engine.md R110, 60_exceptions.md R233: in Halted and Faulted no step exists, so
a run that has stopped stays stopped. That the model answers with a fault of its own there is its convention
(log 4). -/
def Obligations.StoppedEngineTakesNoStep : Prop :=
  ∀ s : State, s.status ≠ .running → ∀ k t, Host.Core.run Sys2Proof.core (k + 1) s ≠ .next t

/-- 40_execution_engine.md R117: "A run cannot get stuck: in every `Running` state `Step` is defined"; and no
instruction is refused. -/
def Obligations.RunningEngineAlwaysSteps : Prop :=
  ∀ s : State, s.status = .running → ∃ t, step s = .next t

/-- 40_execution_engine.md R110, 44_halt.md R160: the engine becomes Halted by executing a word with tag 7, and
in no other way. -/
def Obligations.OnlyHaltHalts : Prop :=
  ∀ s t : State, step s = .next t → (t.status = .halted ↔ ∃ w, s.mem.read 0#32 s.pc = some w ∧ bits w 28 4 = 7)

/-- 60_exceptions.md R224, R230, R231, R232 (the spec's decisions D3, D9, D23): a fatal error changes no
register, heap word or stream; the record holds the kind, the fetch address and the fetched word, and `pc` is
one past the address; for ProgramCounterOverrun `pc` is unchanged and the word is 0. -/
def Obligations.ErrorsArePrecise : Prop :=
  ∀ (s t : State) (e : ErrorKind), step s = .next t → t.status = .faulted e →
    SameRegsBut [] s t ∧ SameHeap s t ∧ SameStreams s t ∧ SameParams s t ∧
    (e = .programCounterOverrun → t.pc = s.pc ∧ t.fault = some { kind := e, addr := s.pc, word := 0#32 }) ∧
    (e ≠ .programCounterOverrun → t.pc = s.pc + 1#32 ∧
      ∃ w, s.mem.read 0#32 s.pc = some w ∧ t.fault = some { kind := e, addr := s.pc, word := w })

/-- 60_exceptions.md R221 (with the spec's decisions D5, D6, D7, D10): a step raises each of the six error kinds
exactly under the condition of the table. The premise on the number of slots is 10_state.md R33(d). -/
def Obligations.ErrorsAreRaisedExactlyWhenTheTableSays : Prop :=
  ∀ (s t : State) (e : ErrorKind), s.mem.slots.length ≤ 2 ^ 32 → step s = .next t →
    (t.status = .faulted e ↔ ErrorCause s e)

/-! ### The instructions -/

/-- 41_conditional_move.md R130. -/
def Obligations.ConditionalMoveEffect : Prop :=
  DecodesR3 0 .cmov ∧ ∀ (a b c : Sel) (s : State), ∃ t, exec (.cmov a b c) s = .next t ∧
    (s.reg c ≠ 0#32 → t.reg a = s.reg b) ∧ (s.reg c = 0#32 → t.reg a = s.reg a) ∧
    SameRegsBut [a] s t ∧ SameButRegs s t

/-- 42_array_access.md R135. -/
def Obligations.ArrayIndexEffect : Prop :=
  DecodesR3 1 .aidx ∧ ∀ (a b c : Sel) (s : State),
    (s.mem.live (s.reg b) = true → (s.reg c).toNat < s.mem.len (s.reg b) →
      ∃ t v, exec (.aidx a b c) s = .next t ∧ s.mem.read (s.reg b) (s.reg c) = some v ∧ t.reg a = v ∧
        SameRegsBut [a] s t ∧ SameButRegs s t) ∧
    (BadAddress s (s.reg b) (s.reg c) →
      ∃ t, exec (.aidx a b c) s = .next t ∧ Raised .outOfBoundsAccess s t)

/-- 42_array_access.md R139. The address stored to is the pair `(x[A], x[B])`. -/
def Obligations.ArrayAmendmentEffect : Prop :=
  DecodesR3 2 .amend ∧ ∀ (a b c : Sel) (s : State),
    (s.mem.live (s.reg a) = true → (s.reg b).toNat < s.mem.len (s.reg a) →
      ∃ t, exec (.amend a b c) s = .next t ∧
        t.mem.read (s.reg a) (s.reg b) = some (s.reg c) ∧
        (∀ h i, (h, i) ≠ (s.reg a, s.reg b) → t.mem.read h i = s.mem.read h i) ∧
        (∀ h, t.mem.live h = s.mem.live h ∧ t.mem.len h = s.mem.len h) ∧
        t.mem.slots.length = s.mem.slots.length ∧ t.mem.free = s.mem.free ∧
        SameRegsBut [] s t ∧ SameEngine s t ∧ SameStreams s t ∧ SameParams s t) ∧
    (BadAddress s (s.reg a) (s.reg b) →
      ∃ t, exec (.amend a b c) s = .next t ∧ Raised .outOfBoundsAccess s t)

/-- 43_arithmetic_logic.md R145. -/
def Obligations.AdditionEffect : Prop :=
  DecodesR3 3 .add ∧ ∀ (a b c : Sel) (s : State), ∃ t, exec (.add a b c) s = .next t ∧
    (t.reg a).toNat = ((s.reg b).toNat + (s.reg c).toNat) % 2 ^ 32 ∧
    SameRegsBut [a] s t ∧ SameButRegs s t

/-- 43_arithmetic_logic.md R148. -/
def Obligations.MultiplicationEffect : Prop :=
  DecodesR3 4 .mul ∧ ∀ (a b c : Sel) (s : State), ∃ t, exec (.mul a b c) s = .next t ∧
    (t.reg a).toNat = ((s.reg b).toNat * (s.reg c).toNat) % 2 ^ 32 ∧
    SameRegsBut [a] s t ∧ SameButRegs s t

/-- 43_arithmetic_logic.md R151: the quotient is the integer `q` with `q * x[C] ≤ x[B] < (q + 1) * x[C]`. -/
def Obligations.DivisionEffect : Prop :=
  DecodesR3 5 .div ∧ ∀ (a b c : Sel) (s : State),
    (s.reg c ≠ 0#32 → ∃ t, exec (.div a b c) s = .next t ∧
      (t.reg a).toNat * (s.reg c).toNat ≤ (s.reg b).toNat ∧
      (s.reg b).toNat < ((t.reg a).toNat + 1) * (s.reg c).toNat ∧
      SameRegsBut [a] s t ∧ SameButRegs s t) ∧
    (s.reg c = 0#32 → ∃ t, exec (.div a b c) s = .next t ∧ Raised .divisionByZero s t)

/-- 43_arithmetic_logic.md R155: result bit `k` is 0 exactly when bit `k` of both sources is 1. -/
def Obligations.NotAndEffect : Prop :=
  DecodesR3 6 .nand ∧ ∀ (a b c : Sel) (s : State), ∃ t, exec (.nand a b c) s = .next t ∧
    (∀ k, k < 32 → (bits (t.reg a) k 1 = 0 ↔ bits (s.reg b) k 1 = 1 ∧ bits (s.reg c) k 1 = 1)) ∧
    SameRegsBut [a] s t ∧ SameButRegs s t

/-- 44_halt.md R160. -/
def Obligations.HaltEffect : Prop :=
  DecodesR3 7 .halt ∧ ∀ (a b c : Sel) (s : State), ∃ t, exec (.halt a b c) s = .next t ∧
    t.status = .halted ∧ t.pc = s.pc ∧ t.fault = s.fault ∧
    SameRegsBut [] s t ∧ SameHeap s t ∧ SameStreams s t ∧ SameParams s t ∧ ∀ u, step t ≠ .next u

/-- 45_heap_management.md R165, R166 (growth limit and AllocOK: the spec's decision D10 and R168): reuse of the
most recently freed handle, else growth by one slot, else AllocationFailure. The premise on the popped handle is
10_state.md R33(b). -/
def Obligations.AllocationEffect : Prop :=
  DecodesR3 8 .alloc ∧ ∀ (a b c : Sel) (s : State),
    (∀ h rest, s.allocOK (s.reg c).toNat = true → s.mem.free = h :: rest → h.toNat < s.mem.slots.length →
      ∃ t, exec (.alloc a b c) s = .next t ∧ t.reg b = h ∧ t.mem.free = rest ∧
        t.mem.slots.length = s.mem.slots.length ∧
        t.mem.live h = true ∧ t.mem.len h = (s.reg c).toNat ∧
        (∀ i : Word, i.toNat < (s.reg c).toNat → t.mem.read h i = some 0#32) ∧
        (∀ g, g ≠ h → SameArray g s t) ∧
        SameRegsBut [b] s t ∧ SameEngine s t ∧ SameStreams s t ∧ SameParams s t) ∧
    (s.allocOK (s.reg c).toNat = true → s.mem.free = [] → s.mem.slots.length < 2 ^ 32 →
      ∃ t, exec (.alloc a b c) s = .next t ∧ (t.reg b).toNat = s.mem.slots.length ∧ t.mem.free = [] ∧
        t.mem.slots.length = s.mem.slots.length + 1 ∧
        t.mem.live (t.reg b) = true ∧ t.mem.len (t.reg b) = (s.reg c).toNat ∧
        (∀ i : Word, i.toNat < (s.reg c).toNat → t.mem.read (t.reg b) i = some 0#32) ∧
        (∀ g, g ≠ t.reg b → SameArray g s t) ∧
        SameRegsBut [b] s t ∧ SameEngine s t ∧ SameStreams s t ∧ SameParams s t) ∧
    (s.allocOK (s.reg c).toNat = false ∨ (s.mem.free = [] ∧ s.mem.slots.length = 2 ^ 32) →
      ∃ t, exec (.alloc a b c) s = .next t ∧ Raised .allocationFailure s t)

/-- 45_heap_management.md R169, R170 (handle 0: R171, the spec's decision D6). -/
def Obligations.AbandonmentEffect : Prop :=
  DecodesR3 9 .aband ∧ ∀ (a b c : Sel) (s : State),
    (s.reg c ≠ 0#32 → s.mem.live (s.reg c) = true →
      ∃ t, exec (.aband a b c) s = .next t ∧ t.mem.live (s.reg c) = false ∧
        t.mem.free = s.reg c :: s.mem.free ∧ t.mem.slots.length = s.mem.slots.length ∧
        (∀ i, t.mem.read (s.reg c) i = none) ∧ (∀ g, g ≠ s.reg c → SameArray g s t) ∧
        SameRegsBut [] s t ∧ SameEngine s t ∧ SameStreams s t ∧ SameParams s t) ∧
    (s.reg c = 0#32 ∨ s.mem.live (s.reg c) = false →
      ∃ t, exec (.aband a b c) s = .next t ∧ Raised .outOfBoundsAccess s t)

/-- 46_io.md R185, R186 (the spec's decisions D5, D21). -/
def Obligations.OutputEffect : Prop :=
  DecodesR3 10 .out ∧ ∀ (a b c : Sel) (s : State),
    ((s.reg c).toNat ≤ 255 → ∃ t byte, exec (.out a b c) s = .next t ∧ t.out = s.out ++ [byte] ∧
      byte.toNat = (s.reg c).toNat ∧ t.inPos = s.inPos ∧
      SameRegsBut [] s t ∧ SameHeap s t ∧ SameEngine s t ∧ SameParams s t) ∧
    (255 < (s.reg c).toNat → ∃ t, exec (.out a b c) s = .next t ∧ Raised .invalidOutputByte s t)

/-- 46_io.md R189, R190 (the spec's decisions D11, D12): the next byte, zero-extended; at end-of-stream
0xFFFFFFFF, with nothing consumed. -/
def Obligations.InputEffect : Prop :=
  DecodesR3 11 .inp ∧ ∀ (a b c : Sel) (s : State), ∃ t, exec (.inp a b c) s = .next t ∧
    (∀ byte, s.input[s.inPos]? = some byte → (t.reg c).toNat = byte.toNat ∧ t.inPos = s.inPos + 1) ∧
    (s.input.length ≤ s.inPos → t.reg c = 0xFFFFFFFF#32 ∧ t.inPos = s.inPos) ∧ t.out = s.out ∧
    SameRegsBut [c] s t ∧ SameHeap s t ∧ SameEngine s t ∧ SameParams s t

/-- 47_load_program.md R200 (zero length: R201, the spec's decisions D7, D8; AllocOK: D10; the order of the
checks: D17). With `x[B] = 0` a jump and nothing else; otherwise array 0 becomes a copy of the array at
`x[B]`. -/
def Obligations.LoadProgramEffect : Prop :=
  DecodesR3 12 .loadp ∧ ∀ (a b c : Sel) (s : State),
    (s.reg b = 0#32 → ∃ t, exec (.loadp a b c) s = .next t ∧ t.pc = s.reg c ∧ t.status = s.status ∧
      t.fault = s.fault ∧ SameRegsBut [] s t ∧ SameHeap s t ∧ SameStreams s t ∧ SameParams s t) ∧
    (s.reg b ≠ 0#32 → s.mem.live (s.reg b) = true → s.mem.len (s.reg b) ≠ 0 →
      s.allocOK (s.mem.len (s.reg b)) = true →
      ∃ t, exec (.loadp a b c) s = .next t ∧ t.pc = s.reg c ∧ t.status = s.status ∧ t.fault = s.fault ∧
        t.mem.live 0#32 = true ∧ t.mem.len 0#32 = s.mem.len (s.reg b) ∧
        (∀ i, t.mem.read 0#32 i = s.mem.read (s.reg b) i) ∧ (∀ g, g ≠ 0#32 → SameArray g s t) ∧
        t.mem.free = s.mem.free ∧ t.mem.slots.length = s.mem.slots.length ∧
        SameRegsBut [] s t ∧ SameStreams s t ∧ SameParams s t) ∧
    (s.reg b ≠ 0#32 → (s.mem.live (s.reg b) = false ∨ s.mem.len (s.reg b) = 0) →
      ∃ t, exec (.loadp a b c) s = .next t ∧ Raised .outOfBoundsAccess s t) ∧
    (s.reg b ≠ 0#32 → s.mem.live (s.reg b) = true → s.mem.len (s.reg b) ≠ 0 →
      s.allocOK (s.mem.len (s.reg b)) = false →
      ∃ t, exec (.loadp a b c) s = .next t ∧ Raised .allocationFailure s t)

/-- 48_orthography.md R210: every word with tag 13 loads `w[24:0]`, zero-extended, into `x[w[27:25]]`. -/
def Obligations.OrthographyEffect : Prop :=
  (∀ w : Word, bits w 28 4 = 13 →
    ∃ imm : Word, imm.toNat = bits w 0 25 ∧ decode w = .ok (.orth (selAt w 25) imm)) ∧
  ∀ (r : Sel) (imm : Word) (s : State), ∃ t, exec (.orth r imm) s = .next t ∧ t.reg r = imm ∧
    SameRegsBut [r] s t ∧ SameButRegs s t

/-! ### The heap -/

/-- 20_memory.md R50, R57: an address can be read exactly when its handle is live and its index is below the
length; a live handle names a slot (10_state.md R31). -/
def Obligations.ReadSucceedsExactlyOnValidAddresses : Prop :=
  ∀ (m : Memory) (h i : Word),
    ((∃ v, m.read h i = some v) ↔ m.live h = true ∧ i.toNat < m.len h) ∧
    (m.live h = true → h.toNat < m.slots.length)

/-- 10_state.md R32: the free pool is a stack. Deallocation pushes the freed handle, allocation pops the most
recently pushed one, and it is empty after reset. -/
def Obligations.FreePoolIsLifo : Prop :=
  (∀ (a b c : Sel) (s t : State), s.status = .running → exec (.aband a b c) s = .next t → t.status = .running →
    t.mem.free = s.reg c :: s.mem.free) ∧
  (∀ (a b c : Sel) (s t : State) (h : Word) (rest : List Word), s.status = .running →
    s.mem.free = h :: rest → exec (.alloc a b c) s = .next t → t.status = .running →
    t.reg b = h ∧ t.mem.free = rest) ∧
  (∀ image input oracle, (State.boot image input oracle).mem.free = [])

/-- 20_memory.md R57, R65: from the moment a handle is abandoned until it is given out again, every access
through it raises OutOfBoundsAccess; abandoning it twice does (45_heap_management.md R169). -/
def Obligations.StaleHandleFaults : Prop :=
  ∀ (a b c : Sel) (s t : State), s.status = .running → exec (.aband a b c) s = .next t → t.status = .running →
    ∀ (p q r : Sel),
      (t.reg q = s.reg c → ∃ u, exec (.aidx p q r) t = .next u ∧ Raised .outOfBoundsAccess t u) ∧
      (t.reg p = s.reg c → ∃ u, exec (.amend p q r) t = .next u ∧ Raised .outOfBoundsAccess t u) ∧
      (t.reg r = s.reg c → ∃ u, exec (.aband p q r) t = .next u ∧ Raised .outOfBoundsAccess t u) ∧
      (t.reg q = s.reg c → ∃ u, exec (.loadp p q r) t = .next u ∧ Raised .outOfBoundsAccess t u)

/-- 95_test_vectors.md S4, 20_memory.md R65: an allocation right after an Abandonment returns the freed handle,
and no word of the old array is ever seen through it. -/
def Obligations.ReusedHandleReadsZero : Prop :=
  ∀ (a b c p q r : Sel) (s t u : State), s.status = .running → exec (.aband a b c) s = .next t →
    t.status = .running → exec (.alloc p q r) t = .next u → u.status = .running →
    u.reg q = s.reg c ∧ u.mem.len (s.reg c) = (t.reg r).toNat ∧
      ∀ i : Word, i.toNat < (t.reg r).toNat → u.mem.read (s.reg c) i = some 0#32

/-- 45_heap_management.md R167: the handle an Allocation returns is never 0 and was not live; it is live
after. -/
def Obligations.AllocatedHandleIsFresh : Prop :=
  ∀ (a b c : Sel) (s t : State), s.Inv → s.status = .running → exec (.alloc a b c) s = .next t →
    t.status = .running →
    t.reg b ≠ 0#32 ∧ s.mem.live (t.reg b) = false ∧ t.mem.live (t.reg b) = true

/-- 20_memory.md R63: a store through handle 0 at the index to be fetched next is what the next step fetches,
decodes and runs. -/
def Obligations.StoreIsSeenByTheNextFetch : Prop :=
  ∀ (a b c : Sel) (s t : State) (i : Instr), s.status = .running → s.reg a = 0#32 → s.reg b = s.pc →
    exec (.amend a b c) s = .next t → t.status = .running → decode (s.reg c) = .ok i →
    t.mem.read 0#32 t.pc = some (s.reg c) ∧ step t = exec i { t with pc := t.pc + 1#32 }

/-- 47_load_program.md R200, 10_state.md R30: after a copying LoadProgram the two arrays are independent: a
later store to the source does not change array 0, nor a store to array 0 the source. -/
def Obligations.LoadedProgramIsAnIndependentCopy : Prop :=
  ∀ (a b c p q r : Sel) (s t u : State), s.status = .running → s.reg b ≠ 0#32 →
    exec (.loadp a b c) s = .next t → t.status = .running → exec (.amend p q r) t = .next u →
    (t.reg p = s.reg b → ∀ i, u.mem.read 0#32 i = s.mem.read (s.reg b) i) ∧
    (t.reg p = 0#32 → ∀ i, u.mem.read (s.reg b) i = s.mem.read (s.reg b) i)

/-- 20_memory.md R56: "A store of the value already present changes nothing". The premise is the heap's
canonical form, which every run keeps. -/
def Obligations.StoringThePresentValueChangesNothing : Prop :=
  ∀ (a b c : Sel) (s : State), s.mem.wf → s.mem.read (s.reg a) (s.reg b) = some (s.reg c) →
    exec (.amend a b c) s = .next s

/-! ### Rules over all instructions -/

/-- 40_execution_engine.md R114: a handler changes `pc` (LoadProgram only), `status` (Halt only, or by raising),
`in_pos` (Input only), `out` (Output only), the heap (ArrayAmendment, Allocation, Abandonment, LoadProgram
only), and never the environment's parameters. -/
def Obligations.HandlersTouchOnlyTheirState : Prop :=
  ∀ (i : Instr) (s t : State), exec i s = .next t →
    ((∀ a b c, i ≠ .loadp a b c) → t.pc = s.pc) ∧
    ((∀ a b c, i ≠ .halt a b c) → t.status = s.status ∧ t.fault = s.fault ∨ t.failed) ∧
    ((∀ a b c, i ≠ .inp a b c) → t.inPos = s.inPos) ∧
    ((∀ a b c, i ≠ .out a b c) → t.out = s.out) ∧
    ((∀ a b c, i ≠ .amend a b c ∧ i ≠ .alloc a b c ∧ i ≠ .aband a b c ∧ i ≠ .loadp a b c) → SameHeap s t) ∧
    SameParams s t

/-- 20_memory.md R52, 42_array_access.md R136: "Allocation/Abandonment are the only operations that mutate heap
topology". The premise is 10_state.md R33(c). -/
def Obligations.OnlyAllocationAndAbandonmentChangeTopology : Prop :=
  ∀ (i : Instr) (s t : State), s.mem.live 0#32 = true → exec i s = .next t →
    (∀ a b c, i ≠ .alloc a b c ∧ i ≠ .aband a b c) →
    t.mem.slots.length = s.mem.slots.length ∧ t.mem.free = s.mem.free ∧ ∀ h, t.mem.live h = s.mem.live h

/-- 10_state.md R21, right column: an instruction writes at most the one register the table names. -/
def Obligations.OnlyTheTablesRegisterIsWritten : Prop :=
  ∀ (i : Instr) (s t : State), exec i s = .next t → SameRegsBut (Instr.writes i) s t

/-- 10_state.md R21, middle column: what an instruction does depends on no register but those the table says it
reads. From two states that differ in other registers only, the results differ in registers only, and each
register is either given the same value in both or left alone in both. -/
def Obligations.OnlyTheTablesRegistersAreRead : Prop :=
  ∀ (i : Instr) (s t : State) (regs : Vector Word 8), exec i s = .next t →
    (∀ r ∈ Instr.reads i, (s.withRegs regs).reg r = s.reg r) →
    ∃ t', exec i (s.withRegs regs) = .next t' ∧ t' = t.withRegs t'.regs ∧
      ∀ r, t'.reg r = t.reg r ∨ (t'.reg r = (s.withRegs regs).reg r ∧ t.reg r = s.reg r)

/-- 10_state.md R24, 47_load_program.md R202: every step that fetches leaves `pc` at the next word, but for
LoadProgram (tag 12), which alone may leave it elsewhere. -/
def Obligations.OnlyLoadProgramJumps : Prop :=
  ∀ (s t : State) (w : Word), step s = .next t → s.mem.read 0#32 s.pc = some w → bits w 28 4 ≠ 12 →
    t.pc = s.pc + 1#32

/-- 10_state.md R35 (the spec's decision D21): a step appends at most one byte to the output, only an Output
(tag 10) appends one, and no emitted byte is ever removed or changed, by a fatal error either. -/
def Obligations.OutputOnlyGrows : Prop :=
  ∀ s t : State, step s = .next t →
    t.out = s.out ∨ ∃ w byte, s.mem.read 0#32 s.pc = some w ∧ bits w 28 4 = 10 ∧ t.out = s.out ++ [byte]

/-- 10_state.md R31: `slots` only grows, one slot at a time, by an Allocation (tag 8) when the free pool is
empty; it never shrinks. -/
def Obligations.SlotsOnlyGrow : Prop :=
  ∀ s t : State, step s = .next t →
    t.mem.slots.length = s.mem.slots.length ∨
      (t.mem.slots.length = s.mem.slots.length + 1 ∧ s.mem.free = [] ∧
        ∃ w, s.mem.read 0#32 s.pc = some w ∧ bits w 28 4 = 8)

/-- 10_state.md R25: on a heap in canonical form the increment of the program counter does not wrap. -/
def Obligations.IncrementNeverWraps : Prop :=
  ∀ (s t : State) (w : Word), s.mem.wf → step s = .next t → s.mem.read 0#32 s.pc = some w → bits w 28 4 ≠ 12 →
    t.pc.toNat = s.pc.toNat + 1

/-! ### Reset and the image -/

/-- 70_reset_and_hazards.md R260: what reset leaves, for every image, input stream and allocation oracle. -/
def Obligations.ResetBuildsTheInitialState : Prop :=
  ∀ (image : List Word) (input : List Byte) (oracle : AllocOracle) (s : State),
    s = State.boot image input oracle → image.length < 2 ^ 32 →
    (∀ r, s.reg r = 0#32) ∧ s.pc = 0#32 ∧ s.status = .running ∧ s.fault = none ∧ s.inPos = 0 ∧ s.out = [] ∧
    s.mem.slots.length = 1 ∧ s.mem.free = [] ∧ s.mem.live 0#32 = true ∧ s.mem.len 0#32 = image.length ∧
    (∀ i : Word, s.mem.read 0#32 i = image[i.toNat]?) ∧ s.input = input ∧ s.allocOracle = oracle

/-- 70_reset_and_hazards.md R262, 20_memory.md R54: word `k` of array 0 is file bytes `4k` to `4k + 3`, big
endian; every word of the file is loaded, in order, starting at index 0, and nothing else is. -/
def Obligations.ImageWordsAreBigEndian : Prop :=
  ∀ (f input : List Byte) (oracle : AllocOracle) (s : State), State.bootBytes f input oracle = some s →
    4 * s.mem.len 0#32 = f.length ∧
    ∀ (k : Word) (b0 b1 b2 b3 : Byte), f[4 * k.toNat]? = some b0 → f[4 * k.toNat + 1]? = some b1 →
      f[4 * k.toNat + 2]? = some b2 → f[4 * k.toNat + 3]? = some b3 →
      ∃ w, s.mem.read 0#32 k = some w ∧
        w.toNat = b0.toNat * 2 ^ 24 + b1.toNat * 2 ^ 16 + b2.toNat * 2 ^ 8 + b3.toNat

/-- 70_reset_and_hazards.md R263, R264 (the spec's decision D13): a file is rejected exactly when its size is no
multiple of 4 or it holds 2^32 words or more. -/
def Obligations.MalformedImagesAreRejected : Prop :=
  ∀ (f input : List Byte) (oracle : AllocOracle),
    State.bootBytes f input oracle = none ↔ f.length % 4 ≠ 0 ∨ 2 ^ 32 ≤ f.length / 4

/-! ### The invariant -/

/-- 10_state.md R27, R33, 60_exceptions.md R232: every step keeps the heap's canonical form, the heap invariants,
the agreement of status and fault record, and the input position. -/
def Obligations.EveryStepKeepsTheInvariant : Prop :=
  ∀ s t : State, s.Inv → step s = .next t → t.Inv

/-- The invariant holds at reset, with any image of fewer than 2^32 words (70_reset_and_hazards.md R263), and at
the model's reset state, whose empty image is the model's choice (log 1). -/
def Obligations.InvariantHoldsAtReset : Prop :=
  (∀ image input oracle, image.length < 2 ^ 32 → (State.boot image input oracle).Inv) ∧ State.reset.Inv

/-- The invariant holds in every state of every run from reset, for every image, input stream and allocation
oracle (10_state.md R33: "true after reset and preserved by every step"). -/
def Obligations.EveryRunKeepsTheInvariant : Prop :=
  ∀ (image : List Word) (input : List Byte) (oracle : AllocOracle) (k : Nat) (t : State),
    image.length < 2 ^ 32 →
    Host.Core.run Sys2Proof.core k (State.boot image input oracle) = .next t → t.Inv

/-- 40_execution_engine.md R115, R117, 60_exceptions.md R221: from a Running state that meets the invariant, the
first `k` steps are safe exactly when in no Running state before the last does the condition of an error hold. -/
def Obligations.RunIsSafeExactlyWhenNoErrorConditionArises : Prop :=
  ∀ (k : Nat) (s : State), s.Inv → s.status = .running →
    (SafeFor k s ↔ ∀ j t, j < k → Host.Core.run Sys2Proof.core j s = .next t → t.status = .running →
      ∀ e, ¬ ErrorCause t e)
end

