-- ==== Sys2Proof/Laws/Decode.lean ====
section
/-! SUPPORT. The decoder's fields by place value, and what a decoded word says of its instruction. -/

namespace Sys2Proof

open Machine (bits selAt)

theorem tagField_toNat (w : Word) : (tagField w).toNat = bits w 28 4 := by
  simp [tagField, bits, Nat.shiftRight_eq_div_pow]

theorem selA_eq (w : Word) : selA w = selAt w 6 := by
  ext; simp [selA, selAt, bits, Nat.shiftRight_eq_div_pow]

theorem selB_eq (w : Word) : selB w = selAt w 3 := by
  ext; simp [selB, selAt, bits, Nat.shiftRight_eq_div_pow]

theorem selC_eq (w : Word) : selC w = selAt w 0 := by
  ext; simp [selC, selAt, bits]

theorem selImm_eq (w : Word) : selImm w = selAt w 25 := by
  ext; simp [selImm, selAt, bits, Nat.shiftRight_eq_div_pow]

theorem immField_toNat (w : Word) : (immField w).toNat = bits w 0 25 := by
  simp [immField, bits]
  omega

theorem bits_lt (w : Word) (lo n : Nat) : bits w lo n < 2 ^ n := Nat.mod_lt _ (by positivity)

/-- A canonical three-register word, as a number. -/
theorem encodeR3_toNat {tag : Nat} (h : tag < 16) (a b c : Sel) :
    (encodeR3 tag a b c).toNat = tag * 2 ^ 28 + a.val * 64 + b.val * 8 + c.val := by
  have := a.isLt; have := b.isLt; have := c.isLt
  rw [encodeR3, BitVec.toNat_ofNat, Nat.mod_eq_of_lt]
  simp only [Config.nregs] at *
  omega

/-- An immediate word, as a number. -/
theorem encodeImm_toNat (r : Sel) (imm : Word) :
    (encodeImm r imm).toNat = 13 * 2 ^ 28 + r.val * 2 ^ 25 + imm.toNat % 2 ^ 25 := by
  have := r.isLt
  rw [encodeImm, BitVec.toNat_ofNat, Nat.mod_eq_of_lt]
  simp only [Config.nregs] at *
  omega

/-- Reading back the fields of a canonical three-register word. -/
theorem fields_encodeR3 {tag : Nat} (h : tag < 16) (a b c : Sel) :
    bits (encodeR3 tag a b c) 28 4 = tag ∧ selAt (encodeR3 tag a b c) 6 = a ∧
      selAt (encodeR3 tag a b c) 3 = b ∧ selAt (encodeR3 tag a b c) 0 = c := by
  have ha := a.isLt; have hb := b.isLt; have hc := c.isLt
  simp only [Config.nregs] at ha hb hc
  refine ⟨?_, Fin.ext ?_, Fin.ext ?_, Fin.ext ?_⟩ <;>
    simp only [selAt, bits, encodeR3_toNat h] <;> omega

/-- Reading back the fields of an immediate word. -/
theorem fields_encodeImm (r : Sel) (imm : Word) :
    bits (encodeImm r imm) 28 4 = 13 ∧ selAt (encodeImm r imm) 25 = r ∧
      bits (encodeImm r imm) 0 25 = imm.toNat % 2 ^ 25 := by
  have hr := r.isLt
  simp only [Config.nregs] at hr
  refine ⟨?_, Fin.ext ?_, ?_⟩ <;> simp only [selAt, bits, encodeImm_toNat] <;> omega

end Sys2Proof
end

