-- ==== Sys2Proof/Laws/Memory.lean ====
section
/-! SUPPORT. The laws of the Array Heap: read after write, what each heap operation does to each array, and that
every operation keeps the canonical form `Memory.wf`. -/

namespace Sys2Proof.Machine

/-! ### Cells -/

theorem cellAt_of_forall_ne {l : List (Nat × Word)} {i : Nat} (h : ∀ c ∈ l, c.1 ≠ i) : cellAt l i = 0#32 := by
  induction l with
  | nil => rfl
  | cons c l ih =>
    obtain ⟨k, u⟩ := c
    have hk : k ≠ i := h (k, u) (by simp)
    simp only [cellAt, if_neg hk]
    exact ih fun c hc => h c (by simp [hc])

theorem cellAt_insertCell {l : List (Nat × Word)} {i : Nat} (v : Word) (j : Nat) (h : ∀ c ∈ l, c.1 ≠ i) :
    cellAt (insertCell i v l) j = if j = i then v else cellAt l j := by
  induction l with
  | nil => simp [insertCell, cellAt, eq_comm]
  | cons c l ih =>
    obtain ⟨k, u⟩ := c
    have hk : k ≠ i := h (k, u) (by simp)
    have ih := ih fun c hc => h c (by simp [hc])
    by_cases hlt : i < k
    · simp only [insertCell, if_pos hlt, cellAt, eq_comm (a := i)]
    · simp only [insertCell, if_neg hlt, cellAt, ih]
      by_cases hj : k = j
      · have : j ≠ i := hj ▸ hk
        simp [hj, this]
      · simp [hj]

theorem cellAt_filter_ne (l : List (Nat × Word)) (i j : Nat) :
    cellAt (l.filter (fun c => c.1 ≠ i)) j = if j = i then 0#32 else cellAt l j := by
  induction l with
  | nil => simp [cellAt]
  | cons c l ih =>
    obtain ⟨k, u⟩ := c
    by_cases hk : k = i
    · by_cases hj : j = i <;> simp_all [cellAt, eq_comm]
    · rw [List.filter_cons_of_pos (by simpa using hk)]
      by_cases hj : k = j
      · have : j ≠ i := hj ▸ hk
        simp [cellAt, hj, this]
      · simp only [cellAt, if_neg hj, ih]

theorem ne_of_mem_filter_ne {l : List (Nat × Word)} {i : Nat} {c : Nat × Word}
    (h : c ∈ l.filter (fun c => c.1 ≠ i)) : c.1 ≠ i := by
  simpa using (List.mem_filter.mp h).2

/-- Read after write on cells, at every index. -/
theorem cellAt_setCell (l : List (Nat × Word)) (i j : Nat) (v : Word) :
    cellAt (setCell l i v) j = if j = i then v else cellAt l j := by
  unfold setCell
  split
  · next hv => rw [cellAt_filter_ne, hv]
  · rw [cellAt_insertCell v j fun c hc => ne_of_mem_filter_ne hc, cellAt_filter_ne]
    by_cases hj : j = i <;> simp [hj]

theorem mem_insertCell {l : List (Nat × Word)} {i : Nat} {v : Word} {c : Nat × Word} :
    c ∈ insertCell i v l ↔ c = (i, v) ∨ c ∈ l := by
  induction l with
  | nil => simp [insertCell]
  | cons d l ih =>
    obtain ⟨k, u⟩ := d
    by_cases hlt : i < k
    · simp [insertCell, hlt]
    · simp only [insertCell, if_neg hlt, List.mem_cons, ih]
      tauto

theorem pairwise_insertCell {l : List (Nat × Word)} {i : Nat} (v : Word)
    (hl : l.Pairwise (fun p q => p.1 < q.1)) (h : ∀ c ∈ l, c.1 ≠ i) :
    (insertCell i v l).Pairwise (fun p q => p.1 < q.1) := by
  induction l with
  | nil => simp [insertCell]
  | cons d l ih =>
    obtain ⟨k, u⟩ := d
    have hk : k ≠ i := h (k, u) (by simp)
    rw [List.pairwise_cons] at hl
    have ih := ih hl.2 fun c hc => h c (by simp [hc])
    by_cases hlt : i < k
    · simp only [insertCell, if_pos hlt, List.pairwise_cons, List.mem_cons]
      refine ⟨?_, hl⟩
      rintro c (rfl | hc)
      · exact hlt
      · exact lt_trans hlt (hl.1 c hc)
    · simp only [insertCell, if_neg hlt, List.pairwise_cons]
      refine ⟨?_, ih⟩
      intro c hc
      rcases mem_insertCell.mp hc with rfl | hc
      · show k < i
        omega
      · exact hl.1 c hc

/-- Writing a cell's own value back changes nothing, on rising cells that list no zero. -/
theorem setCell_self {l : List (Nat × Word)} (i : Nat) (hl : l.Pairwise (fun p q => p.1 < q.1))
    (hz : ∀ c ∈ l, c.2 ≠ 0#32) : setCell l i (cellAt l i) = l := by
  induction l with
  | nil => simp [setCell, cellAt]
  | cons d l ih =>
    obtain ⟨k, u⟩ := d
    rw [List.pairwise_cons] at hl
    have hu : u ≠ 0#32 := hz (k, u) (by simp)
    have hz' : ∀ c ∈ l, c.2 ≠ 0#32 := fun c hc => hz c (by simp [hc])
    by_cases hk : k = i
    · have hne : ∀ c ∈ l, c.1 ≠ i := fun c hc => by
        have := hl.1 c hc
        simp only at this
        omega
      have hf : ((k, u) :: l).filter (fun c => c.1 ≠ i) = l := by
        rw [List.filter_cons_of_neg (by simpa using hk)]
        exact List.filter_eq_self.mpr fun c hc => by simpa using hne c hc
      simp only [setCell, cellAt, if_pos hk, if_neg hu, hf]
      cases l with
      | nil => simp [insertCell, hk]
      | cons d l =>
        obtain ⟨k', u'⟩ := d
        have : i < k' := hk ▸ hl.1 (k', u') (by simp)
        simp [insertCell, this, hk]
    · have ih := ih hl.2 hz'
      simp only [setCell, cellAt, if_neg hk] at ih ⊢
      rw [List.filter_cons_of_pos (by simpa using hk)]
      split at ih
      · next h0 => rw [if_pos h0, ih]
      · next h0 =>
        have hki : ¬ i < k := by
          intro hik
          refine h0 (cellAt_of_forall_ne fun c hc => ?_)
          have := hl.1 c hc
          simp only at this
          omega
        rw [if_neg h0]
        simp only [insertCell, if_neg hki, ih]

theorem cellAt_cellsFrom (ws : List Word) (k j : Nat) :
    cellAt (cellsFrom k ws) j = if j < k then 0#32 else (ws[j - k]?).getD 0#32 := by
  induction ws generalizing k with
  | nil => simp [cellsFrom, cellAt]
  | cons w ws ih =>
    have hstep : cellAt (cellsFrom k (w :: ws)) j = if k = j then w else cellAt (cellsFrom (k + 1) ws) j := by
      by_cases hw : w = 0#32
      · simp only [cellsFrom, if_pos hw, ih (k + 1)]
        by_cases hj : k = j
        · simp [hj, hw]
        · simp [hj]
      · simp only [cellsFrom, if_neg hw, cellAt]
    rw [hstep, ih (k + 1)]
    by_cases hj : k = j
    · simp [hj]
    · rw [if_neg hj]
      by_cases hlt : j < k
      · rw [if_pos hlt, if_pos (by omega)]
      · rw [if_neg hlt, if_neg (by omega)]
        obtain ⟨d, hd⟩ : ∃ d, j - k = d + 1 := ⟨j - k - 1, by omega⟩
        rw [hd, show j - (k + 1) = d by omega]
        simp

theorem mem_cellsFrom {ws : List Word} {k : Nat} {c : Nat × Word} (h : c ∈ cellsFrom k ws) :
    k ≤ c.1 ∧ c.1 < k + ws.length ∧ c.2 ≠ 0#32 := by
  induction ws generalizing k with
  | nil => simp [cellsFrom] at h
  | cons w ws ih =>
    by_cases hw : w = 0#32
    · simp only [cellsFrom, if_pos hw] at h
      obtain ⟨h1, h2, h3⟩ := ih h
      exact ⟨by omega, by simp only [List.length_cons]; omega, h3⟩
    · simp only [cellsFrom, if_neg hw, List.mem_cons] at h
      rcases h with rfl | h
      · exact ⟨le_refl _, by simp, hw⟩
      · obtain ⟨h1, h2, h3⟩ := ih h
        exact ⟨by omega, by simp only [List.length_cons]; omega, h3⟩

theorem pairwise_cellsFrom (ws : List Word) (k : Nat) :
    (cellsFrom k ws).Pairwise (fun p q => p.1 < q.1) := by
  induction ws generalizing k with
  | nil => simp [cellsFrom]
  | cons w ws ih =>
    by_cases hw : w = 0#32
    · simpa only [cellsFrom, if_pos hw] using ih (k + 1)
    · simp only [cellsFrom, if_neg hw, List.pairwise_cons]
      refine ⟨fun c hc => ?_, ih (k + 1)⟩
      have := (mem_cellsFrom hc).1
      show k < c.1
      omega

/-! ### Arrays -/

@[simp] theorem WordArray.len_set (a : WordArray) (i : Nat) (v : Word) : (a.set i v).len = a.len := rfl

@[simp] theorem WordArray.len_zeros (n : Nat) : (WordArray.zeros n).len = n := rfl

@[simp] theorem WordArray.len_ofWords (ws : List Word) : (WordArray.ofWords ws).len = ws.length := rfl

/-- Read after write on an array. -/
@[simp] theorem WordArray.get_set (a : WordArray) (i j : Nat) (v : Word) :
    (a.set i v).get j = if j = i then v else a.get j := cellAt_setCell a.cells i j v

@[simp] theorem WordArray.get_zeros (n i : Nat) : (WordArray.zeros n).get i = 0#32 := rfl

@[simp] theorem WordArray.get_ofWords (ws : List Word) (i : Nat) :
    (WordArray.ofWords ws).get i = (ws[i]?).getD 0#32 := by
  simp [WordArray.ofWords, WordArray.get, cellAt_cellsFrom]

theorem WordArray.wf_zeros {n : Nat} (h : n < 2 ^ 32) : (WordArray.zeros n).wf :=
  ⟨h, List.Pairwise.nil, by simp [WordArray.zeros]⟩

theorem WordArray.wf_ofWords {ws : List Word} (h : ws.length < 2 ^ 32) : (WordArray.ofWords ws).wf :=
  ⟨h, pairwise_cellsFrom ws 0, fun c hc => by
    obtain ⟨_, h2, h3⟩ := mem_cellsFrom (show c ∈ cellsFrom 0 ws from hc)
    exact ⟨by simpa using h2, h3⟩⟩

theorem WordArray.wf_set {a : WordArray} (ha : a.wf) {i : Nat} (hi : i < a.len) (v : Word) :
    (a.set i v).wf := by
  obtain ⟨h1, h2, h3⟩ := ha
  have hp : (a.cells.filter (fun c => c.1 ≠ i)).Pairwise (fun p q => p.1 < q.1) := h2.filter _
  have hm : ∀ c ∈ a.cells.filter (fun c => c.1 ≠ i), c.1 < a.len ∧ c.2 ≠ 0#32 := fun c hc =>
    h3 c (List.mem_filter.mp hc).1
  refine ⟨h1, ?_, ?_⟩ <;> simp only [WordArray.set, setCell] <;> split
  · exact hp
  · exact pairwise_insertCell v hp fun c hc => ne_of_mem_filter_ne hc
  · exact hm
  · next hv =>
    intro c hc
    rcases mem_insertCell.mp hc with rfl | hc
    · exact ⟨hi, hv⟩
    · exact hm c hc

/-- Storing the value an array already holds changes nothing, in canonical form (20_memory.md R56). -/
theorem WordArray.set_get_self {a : WordArray} (ha : a.wf) (i : Nat) : a.set i (a.get i) = a := by
  obtain ⟨_, h2, h3⟩ := ha
  simp only [WordArray.set, WordArray.get, setCell_self i h2 fun c hc => (h3 c hc).2]

/-! ### Liveness, length and reading, through the array at a handle -/

theorem Memory.live_eq (m : Memory) (h : Word) : m.live h = (m.array? h).isSome := rfl

theorem Memory.live_of_array? {m : Memory} {h : Word} {a : WordArray} (e : m.array? h = some a) :
    m.live h = true := by simp [Memory.live, e]

theorem Memory.array?_of_live {m : Memory} {h : Word} (e : m.live h = true) :
    ∃ a, m.array? h = some a := Option.isSome_iff_exists.mp e

theorem Memory.array?_of_not_live {m : Memory} {h : Word} (e : m.live h = false) : m.array? h = none := by
  simpa [Memory.live] using e

theorem Memory.len_of_array? {m : Memory} {h : Word} {a : WordArray} (e : m.array? h = some a) :
    m.len h = a.len := by simp [Memory.len, e]

theorem Memory.len_of_not_live {m : Memory} {h : Word} (e : m.live h = false) : m.len h = 0 := by
  simp [Memory.len, Memory.array?_of_not_live e]

theorem Memory.read_of_array? {m : Memory} {h : Word} {a : WordArray} (e : m.array? h = some a) (i : Word) :
    m.read h i = if i.toNat < a.len then some (a.get i.toNat) else none := by simp [Memory.read, e]

/-- A live handle names a slot (10_state.md R31). -/
theorem Memory.lt_of_array? {m : Memory} {h : Word} {a : WordArray} (e : m.array? h = some a) :
    h.toNat < m.slots.length := by
  by_contra hn
  simp [Memory.array?, List.getElem?_eq_none (Nat.le_of_not_lt hn)] at e

theorem Memory.mem_slots_of_array? {m : Memory} {h : Word} {a : WordArray} (e : m.array? h = some a) :
    some a ∈ m.slots := by
  have hlt := Memory.lt_of_array? e
  simp only [Memory.array?, List.getElem?_eq_getElem hlt, Option.getD_some] at e
  exact e ▸ List.getElem_mem hlt

theorem Memory.wf_of_array? {m : Memory} (hm : m.wf) {h : Word} {a : WordArray} (e : m.array? h = some a) :
    a.wf := hm _ (Memory.mem_slots_of_array? e) a rfl

/-- Everything observable of an array is a function of the slot. -/
theorem Memory.same_of_array? {m n : Memory} {h : Word} (e : n.array? h = m.array? h) :
    n.live h = m.live h ∧ n.len h = m.len h ∧ ∀ i, n.read h i = m.read h i := by
  simp [Memory.live, Memory.len, Memory.read, e]

/-- What one read says: the address is valid, and the word is the array's (20_memory.md R50, R57). -/
theorem Memory.read_eq_some {m : Memory} {h i v : Word} :
    m.read h i = some v ↔ ∃ a, m.array? h = some a ∧ i.toNat < a.len ∧ a.get i.toNat = v := by
  unfold Memory.read
  cases e : m.array? h with
  | none => simp
  | some a => by_cases hi : i.toNat < a.len <;> simp [hi]

theorem Memory.read_eq_none {m : Memory} {h i : Word} :
    m.read h i = none ↔ m.live h = false ∨ m.len h ≤ i.toNat := by
  unfold Memory.read Memory.live Memory.len
  cases e : m.array? h with
  | none => simp
  | some a =>
    by_cases hi : i.toNat < a.len
    · simp [hi]
    · simp [hi, Nat.le_of_not_lt hi]

/-! ### The slots after an update -/

theorem Memory.array?_set (m : Memory) (k : Nat) (o : Option WordArray) (f : List Word) (h : Word) :
    Memory.array? { slots := m.slots.set k o, free := f } h =
      if h.toNat = k ∧ k < m.slots.length then o else m.array? h := by
  simp only [Memory.array?, List.getElem?_set]
  by_cases hk : k = h.toNat
  · subst hk
    by_cases hlt : h.toNat < m.slots.length
    · simp [hlt]
    · simp [hlt]
  · have : ¬ h.toNat = k := fun e => hk e.symm
    simp [hk, this]

theorem Memory.array?_append (m : Memory) (o : Option WordArray) (f : List Word) (h : Word) :
    Memory.array? { slots := m.slots ++ [o], free := f } h =
      if h.toNat = m.slots.length then o else m.array? h := by
  simp only [Memory.array?, List.getElem?_append]
  by_cases hlt : h.toNat < m.slots.length
  · have : h.toNat ≠ m.slots.length := by omega
    simp [hlt, this]
  · by_cases he : h.toNat = m.slots.length
    · simp [he]
    · have : m.slots.length < h.toNat := by omega
      simp [hlt, he]
      rw [List.getElem?_eq_none (by simp; omega)]
      rfl

theorem Memory.wf_set {m : Memory} (hm : m.wf) (k : Nat) {o : Option WordArray} (ho : ∀ a ∈ o, WordArray.wf a)
    (f : List Word) : Memory.wf { slots := m.slots.set k o, free := f } := by
  intro p hp
  rcases List.mem_or_eq_of_mem_set hp with hp | rfl
  · exact hm p hp
  · exact ho

theorem Memory.wf_append {m : Memory} (hm : m.wf) {a : WordArray} (ha : a.wf) (f : List Word) :
    Memory.wf { slots := m.slots ++ [some a], free := f } := by
  intro p hp
  rcases List.mem_append.mp hp with hp | hp
  · exact hm p hp
  · obtain rfl := List.mem_singleton.mp hp
    simpa using ha

/-! ### One law per heap operation: everything it can do -/

/-- `Memory.write` succeeds exactly on a valid address, and replaces the one array. -/
theorem Memory.write_eq_some {m n : Memory} {h i v : Word} :
    m.write h i v = some n ↔ ∃ a, m.array? h = some a ∧ i.toNat < a.len ∧
      n = { m with slots := m.slots.set h.toNat (some (a.set i.toNat v)) } := by
  unfold Memory.write
  cases e : m.array? h with
  | none => simp
  | some a => by_cases hi : i.toNat < a.len <;> simp [hi, eq_comm]

theorem Memory.write_eq_none {m : Memory} {h i v : Word} :
    m.write h i v = none ↔ m.live h = false ∨ m.len h ≤ i.toNat := by
  unfold Memory.write Memory.live Memory.len
  cases e : m.array? h with
  | none => simp
  | some a =>
    by_cases hi : i.toNat < a.len
    · simp [hi]
    · simp [hi, Nat.le_of_not_lt hi]

/-- After a successful write the stored word is read back, every other address reads as before, and no handle's
liveness or length, nor the topology, has changed. -/
theorem Memory.write_spec {m n : Memory} {h i v : Word} (e : m.write h i v = some n) :
    n.read h i = some v ∧ (∀ g j, (g, j) ≠ (h, i) → n.read g j = m.read g j) ∧
      (∀ g, n.live g = m.live g ∧ n.len g = m.len g) ∧
      n.slots.length = m.slots.length ∧ n.free = m.free := by
  obtain ⟨a, ha, hi, rfl⟩ := Memory.write_eq_some.mp e
  have hlt := Memory.lt_of_array? ha
  have hslot : ∀ g, Memory.array? { m with slots := m.slots.set h.toNat (some (a.set i.toNat v)) } g =
      if g = h then some (a.set i.toNat v) else m.array? g := by
    intro g
    rw [Memory.array?_set]
    simp [hlt, BitVec.toNat_inj]
  refine ⟨?_, ?_, ?_, by simp, rfl⟩
  · exact Memory.read_eq_some.mpr ⟨a.set i.toNat v, by rw [hslot, if_pos rfl], hi, by simp⟩
  · intro g j hne
    by_cases hg : g = h
    · subst hg
      have hj : j ≠ i := fun hj => hne (by rw [hj])
      have hj' : j.toNat ≠ i.toNat := fun hj' => hj (BitVec.toNat_inj.mp hj')
      rw [Memory.read_of_array? (by rw [hslot, if_pos rfl]), Memory.read_of_array? ha]
      simp [hj']
    · exact (Memory.same_of_array? (by rw [hslot, if_neg hg])).2.2 j
  · intro g
    by_cases hg : g = h
    · subst hg
      have := hslot g
      rw [if_pos rfl] at this
      exact ⟨by rw [Memory.live_of_array? this, Memory.live_of_array? ha],
        by rw [Memory.len_of_array? this, Memory.len_of_array? ha]; rfl⟩
    · have := Memory.same_of_array? (show Memory.array? _ g = m.array? g by rw [hslot, if_neg hg])
      exact ⟨this.1, this.2.1⟩

theorem Memory.wf_write {m n : Memory} (hm : m.wf) {h i v : Word} (e : m.write h i v = some n) : n.wf := by
  obtain ⟨a, ha, hi, rfl⟩ := Memory.write_eq_some.mp e
  exact Memory.wf_set hm _ (by simpa using WordArray.wf_set (Memory.wf_of_array? hm ha) hi v) _

/-- `HeapAlloc` (45_heap_management.md R166): granted and a free handle on the stack, it is reused; granted and
no free handle, one slot is appended. -/
theorem Memory.heapAlloc_eq_some {m n : Memory} {ok : Bool} {k h : Word} :
    m.heapAlloc ok k = some (h, n) ↔ ok = true ∧
      ((∃ rest, m.free = h :: rest ∧
          n = { slots := m.slots.set h.toNat (some (WordArray.zeros k.toNat)), free := rest }) ∨
        (m.free = [] ∧ m.slots.length < 2 ^ 32 ∧ h = BitVec.ofNat 32 m.slots.length ∧
          n = { slots := m.slots ++ [some (WordArray.zeros k.toNat)], free := [] })) := by
  unfold Memory.heapAlloc
  cases ok with
  | false => simp
  | true =>
    cases e : m.free with
    | nil => by_cases hl : m.slots.length < 2 ^ 32 <;> simp_all [eq_comm]
    | cons g rest =>
      simp only [if_true, Option.some.injEq, Prod.mk.injEq, List.cons.injEq, true_and]
      constructor
      · rintro ⟨rfl, rfl⟩
        exact .inl ⟨rest, ⟨rfl, rfl⟩, rfl⟩
      · rintro (⟨r, ⟨rfl, rfl⟩, rfl⟩ | ⟨h0, _⟩)
        · exact ⟨rfl, rfl⟩
        · simp at h0

theorem Memory.heapAlloc_eq_none {m : Memory} {ok : Bool} {k : Word} :
    m.heapAlloc ok k = none ↔ ok = false ∨ (m.free = [] ∧ 2 ^ 32 ≤ m.slots.length) := by
  unfold Memory.heapAlloc
  cases ok with
  | false => simp
  | true =>
    cases e : m.free with
    | nil => simp
    | cons g rest => simp

theorem Memory.wf_heapAlloc {m n : Memory} (hm : m.wf) {ok : Bool} {k h : Word}
    (e : m.heapAlloc ok k = some (h, n)) : n.wf := by
  obtain ⟨_, ⟨rest, _, rfl⟩ | ⟨_, _, _, rfl⟩⟩ := Memory.heapAlloc_eq_some.mp e
  · exact Memory.wf_set hm _ (by simpa using WordArray.wf_zeros k.isLt) _
  · exact Memory.wf_append hm (WordArray.wf_zeros k.isLt) _

/-- The slots after `HeapFree` (45_heap_management.md R170). -/
theorem Memory.array?_heapFree {m : Memory} {h : Word} (hl : m.live h = true) (g : Word) :
    (m.heapFree h).array? g = if g = h then none else m.array? g := by
  obtain ⟨a, ha⟩ := Memory.array?_of_live hl
  rw [Memory.heapFree, Memory.array?_set]
  simp [Memory.lt_of_array? ha, BitVec.toNat_inj]

@[simp] theorem Memory.free_heapFree (m : Memory) (h : Word) : (m.heapFree h).free = h :: m.free := rfl

@[simp] theorem Memory.length_heapFree (m : Memory) (h : Word) :
    (m.heapFree h).slots.length = m.slots.length := by simp [Memory.heapFree]

theorem Memory.wf_heapFree {m : Memory} (hm : m.wf) (h : Word) : (m.heapFree h).wf :=
  Memory.wf_set hm _ (by simp) _

/-- The slots after the program is replaced (47_load_program.md R200). -/
theorem Memory.array?_setProgram {m : Memory} (hm : 0 < m.slots.length) (a : WordArray) (g : Word) :
    (m.setProgram a).array? g = if g = 0#32 then some a else m.array? g := by
  rw [Memory.setProgram, Memory.array?_set]
  by_cases hg : g = 0#32
  · simp [hg, hm]
  · have : g.toNat ≠ 0 := fun h => hg (BitVec.toNat_inj.mp h)
    rw [if_neg (by simp [this]), if_neg hg]

@[simp] theorem Memory.free_setProgram (m : Memory) (a : WordArray) : (m.setProgram a).free = m.free := rfl

@[simp] theorem Memory.length_setProgram (m : Memory) (a : WordArray) :
    (m.setProgram a).slots.length = m.slots.length := by simp [Memory.setProgram]

theorem Memory.wf_setProgram {m : Memory} (hm : m.wf) {a : WordArray} (ha : a.wf) : (m.setProgram a).wf :=
  Memory.wf_set hm _ (by simpa using ha) _

/-! ### The host's placement of an instruction word, and reset -/

/-- The word placed at an index is what array 0 then holds there. -/
theorem Memory.read_placeWord (m : Memory) (i w : Word) :
    (m.placeWord i.toNat w).read 0#32 i = some w := by
  refine Memory.read_eq_some.mpr
    ⟨{ len := max ((m.array? 0#32).getD (WordArray.zeros 0)).len (i.toNat + 1)
       cells := setCell ((m.array? 0#32).getD (WordArray.zeros 0)).cells i.toNat w }, ?_, ?_, ?_⟩
  · unfold Memory.placeWord
    cases hs : m.slots <;> simp [Memory.array?]
  · simp
  · simp [WordArray.get, cellAt_setCell]

theorem Memory.wf_boot {image : List Word} (h : image.length < 2 ^ 32) (input : List Byte)
    (oracle : AllocOracle) : (State.boot image input oracle).mem.wf := by
  intro o ho
  obtain rfl := List.mem_singleton.mp ho
  simpa using WordArray.wf_ofWords h

/-- The heap at reset is in canonical form. -/
theorem Memory.wf_reset : State.reset.mem.wf := Memory.wf_boot (image := []) (by decide) _ _

/-! ### The allocation oracle -/

/-- Any finite number of answers of any oracle are given by some table: the plain-data form of `AllocOK` leaves
no behaviour of a finite run out (log 3). -/
theorem AllocOracle.exists_answers (f : Memory → Nat → Bool) (asked : List (Memory × Nat)) :
    ∃ o : AllocOracle, ∀ q ∈ asked, o.answer q.1 q.2 = f q.1 q.2 := by
  refine ⟨{ otherwise := true, exceptions := asked.filter (fun q => !f q.1 q.2) }, ?_⟩
  rintro ⟨m, n⟩ hq
  cases h : f m n <;> simp [AllocOracle.answer, hq, h]

end Sys2Proof.Machine
end

