-- ==== Sys2Proof/Laws/PerInstr.lean ====
section
/-! SUPPORT. Facts about every instruction as syntax, one lemma per constructor. Family EncodesItsTag: the top
four bits of an instruction's word are the tag of 30_encoding.md R86. -/

namespace Sys2Proof.Laws.EncodesItsTag

/-- The tag of each operation (30_encoding.md R86; the spec's decision D1, log 8). -/
def tag : Instr → Nat
  | .cmov _ _ _ => 0
  | .aidx _ _ _ => 1
  | .amend _ _ _ => 2
  | .add _ _ _ => 3
  | .mul _ _ _ => 4
  | .div _ _ _ => 5
  | .nand _ _ _ => 6
  | .halt _ _ _ => 7
  | .alloc _ _ _ => 8
  | .aband _ _ _ => 9
  | .out _ _ _ => 10
  | .inp _ _ _ => 11
  | .loadp _ _ _ => 12
  | .orth _ _ => 13

/-- The instruction's word carries its tag, and the decoder reads its tag field as that. -/
def Statement (i : Instr) : Prop :=
  Machine.bits (encode i) 28 4 = tag i ∧ (tagField (encode i)).toNat = tag i

theorem of_bits {i : Instr} (h : Machine.bits (encode i) 28 4 = tag i) : Statement i :=
  ⟨h, (tagField_toNat _).trans h⟩

theorem cmov (a b c : Sel) : Statement (.cmov a b c) := of_bits (fields_encodeR3 (by decide) a b c).1
theorem aidx (a b c : Sel) : Statement (.aidx a b c) := of_bits (fields_encodeR3 (by decide) a b c).1
theorem amend (a b c : Sel) : Statement (.amend a b c) := of_bits (fields_encodeR3 (by decide) a b c).1
theorem add (a b c : Sel) : Statement (.add a b c) := of_bits (fields_encodeR3 (by decide) a b c).1
theorem mul (a b c : Sel) : Statement (.mul a b c) := of_bits (fields_encodeR3 (by decide) a b c).1
theorem div (a b c : Sel) : Statement (.div a b c) := of_bits (fields_encodeR3 (by decide) a b c).1
theorem nand (a b c : Sel) : Statement (.nand a b c) := of_bits (fields_encodeR3 (by decide) a b c).1
theorem halt (a b c : Sel) : Statement (.halt a b c) := of_bits (fields_encodeR3 (by decide) a b c).1
theorem alloc (a b c : Sel) : Statement (.alloc a b c) := of_bits (fields_encodeR3 (by decide) a b c).1
theorem aband (a b c : Sel) : Statement (.aband a b c) := of_bits (fields_encodeR3 (by decide) a b c).1
theorem out (a b c : Sel) : Statement (.out a b c) := of_bits (fields_encodeR3 (by decide) a b c).1
theorem inp (a b c : Sel) : Statement (.inp a b c) := of_bits (fields_encodeR3 (by decide) a b c).1
theorem loadp (a b c : Sel) : Statement (.loadp a b c) := of_bits (fields_encodeR3 (by decide) a b c).1
theorem orth (r : Sel) (imm : Word) : Statement (.orth r imm) := of_bits (fields_encodeImm r imm).1

end Sys2Proof.Laws.EncodesItsTag
end

