-- ==== Sys2Proof/Laws/State.lean ====
section
/-! SUPPORT. One lemma per field of `State` per update, so that no later proof unfolds a record update. -/

namespace Sys2Proof.Machine

variable (s : State)

/-- A register after a write: the new value at the written selector, the old one elsewhere. -/
@[simp] theorem State.reg_setReg (r q : Sel) (v : Word) :
    (s.setReg r v).reg q = if q = r then v else s.reg q := by
  simp [State.setReg, State.reg, Vector.getElem_set, Fin.ext_iff, eq_comm]

/-- Every register is zero after reset with any image. -/
@[simp] theorem State.reg_boot (image : List Word) (input : List Byte) (oracle : AllocOracle) (r : Sel) :
    (State.boot image input oracle).reg r = 0#32 := by
  simp [State.boot, State.reg]

/-- `State.reset` is reset with the empty image, no input and every allocation request granted (log 1). -/
theorem State.reset_eq_boot : State.reset = State.boot [] [] { otherwise := true, exceptions := [] } := rfl


@[simp] theorem State.pc_setReg (r : Sel) (v : Word) : (s.setReg r v).pc = s.pc := rfl
@[simp] theorem State.status_setReg (r : Sel) (v : Word) : (s.setReg r v).status = s.status := rfl
@[simp] theorem State.fault_setReg (r : Sel) (v : Word) : (s.setReg r v).fault = s.fault := rfl
@[simp] theorem State.mem_setReg (r : Sel) (v : Word) : (s.setReg r v).mem = s.mem := rfl
@[simp] theorem State.inPos_setReg (r : Sel) (v : Word) : (s.setReg r v).inPos = s.inPos := rfl
@[simp] theorem State.out_setReg (r : Sel) (v : Word) : (s.setReg r v).out = s.out := rfl
@[simp] theorem State.input_setReg (r : Sel) (v : Word) : (s.setReg r v).input = s.input := rfl
@[simp] theorem State.allocOracle_setReg (r : Sel) (v : Word) : (s.setReg r v).allocOracle = s.allocOracle := rfl

@[simp] theorem State.pc_setPc (t : Word) : (s.setPc t).pc = t := rfl
@[simp] theorem State.status_setPc (t : Word) : (s.setPc t).status = s.status := rfl
@[simp] theorem State.fault_setPc (t : Word) : (s.setPc t).fault = s.fault := rfl
@[simp] theorem State.mem_setPc (t : Word) : (s.setPc t).mem = s.mem := rfl
@[simp] theorem State.inPos_setPc (t : Word) : (s.setPc t).inPos = s.inPos := rfl
@[simp] theorem State.out_setPc (t : Word) : (s.setPc t).out = s.out := rfl
@[simp] theorem State.input_setPc (t : Word) : (s.setPc t).input = s.input := rfl
@[simp] theorem State.allocOracle_setPc (t : Word) : (s.setPc t).allocOracle = s.allocOracle := rfl
@[simp] theorem State.regs_setPc (t : Word) : (s.setPc t).regs = s.regs := rfl
@[simp] theorem State.reg_setPc (t : Word) (q : Sel) : (s.setPc t).reg q = s.reg q := rfl

@[simp] theorem State.pc_advance : (s.advance).pc = s.pc + 1#32 := rfl
@[simp] theorem State.status_advance : (s.advance).status = s.status := rfl
@[simp] theorem State.fault_advance : (s.advance).fault = s.fault := rfl
@[simp] theorem State.mem_advance : (s.advance).mem = s.mem := rfl
@[simp] theorem State.inPos_advance : (s.advance).inPos = s.inPos := rfl
@[simp] theorem State.out_advance : (s.advance).out = s.out := rfl
@[simp] theorem State.input_advance : (s.advance).input = s.input := rfl
@[simp] theorem State.allocOracle_advance : (s.advance).allocOracle = s.allocOracle := rfl
@[simp] theorem State.regs_advance : (s.advance).regs = s.regs := rfl
@[simp] theorem State.reg_advance (q : Sel) : (s.advance).reg q = s.reg q := rfl

@[simp] theorem State.pc_setMem (m : Memory) : (s.setMem m).pc = s.pc := rfl
@[simp] theorem State.status_setMem (m : Memory) : (s.setMem m).status = s.status := rfl
@[simp] theorem State.fault_setMem (m : Memory) : (s.setMem m).fault = s.fault := rfl
@[simp] theorem State.mem_setMem (m : Memory) : (s.setMem m).mem = m := rfl
@[simp] theorem State.inPos_setMem (m : Memory) : (s.setMem m).inPos = s.inPos := rfl
@[simp] theorem State.out_setMem (m : Memory) : (s.setMem m).out = s.out := rfl
@[simp] theorem State.input_setMem (m : Memory) : (s.setMem m).input = s.input := rfl
@[simp] theorem State.allocOracle_setMem (m : Memory) : (s.setMem m).allocOracle = s.allocOracle := rfl
@[simp] theorem State.regs_setMem (m : Memory) : (s.setMem m).regs = s.regs := rfl
@[simp] theorem State.reg_setMem (m : Memory) (q : Sel) : (s.setMem m).reg q = s.reg q := rfl

@[simp] theorem State.pc_halt : (s.halt).pc = s.pc := rfl
@[simp] theorem State.status_halt : (s.halt).status = .halted := rfl
@[simp] theorem State.fault_halt : (s.halt).fault = s.fault := rfl
@[simp] theorem State.mem_halt : (s.halt).mem = s.mem := rfl
@[simp] theorem State.inPos_halt : (s.halt).inPos = s.inPos := rfl
@[simp] theorem State.out_halt : (s.halt).out = s.out := rfl
@[simp] theorem State.input_halt : (s.halt).input = s.input := rfl
@[simp] theorem State.allocOracle_halt : (s.halt).allocOracle = s.allocOracle := rfl
@[simp] theorem State.regs_halt : (s.halt).regs = s.regs := rfl
@[simp] theorem State.reg_halt (q : Sel) : (s.halt).reg q = s.reg q := rfl

@[simp] theorem State.pc_fail (e : ErrorKind) (addr word : Word) : (s.fail e addr word).pc = s.pc := rfl
@[simp] theorem State.status_fail (e : ErrorKind) (addr word : Word) : (s.fail e addr word).status = .faulted e := rfl
@[simp] theorem State.fault_fail (e : ErrorKind) (addr word : Word) : (s.fail e addr word).fault = some { kind := e, addr := addr, word := word } := rfl
@[simp] theorem State.mem_fail (e : ErrorKind) (addr word : Word) : (s.fail e addr word).mem = s.mem := rfl
@[simp] theorem State.inPos_fail (e : ErrorKind) (addr word : Word) : (s.fail e addr word).inPos = s.inPos := rfl
@[simp] theorem State.out_fail (e : ErrorKind) (addr word : Word) : (s.fail e addr word).out = s.out := rfl
@[simp] theorem State.input_fail (e : ErrorKind) (addr word : Word) : (s.fail e addr word).input = s.input := rfl
@[simp] theorem State.allocOracle_fail (e : ErrorKind) (addr word : Word) : (s.fail e addr word).allocOracle = s.allocOracle := rfl
@[simp] theorem State.regs_fail (e : ErrorKind) (addr word : Word) : (s.fail e addr word).regs = s.regs := rfl
@[simp] theorem State.reg_fail (e : ErrorKind) (addr word : Word) (q : Sel) : (s.fail e addr word).reg q = s.reg q := rfl

@[simp] theorem State.pc_raise (e : ErrorKind) : (s.raise e).pc = s.pc := rfl
@[simp] theorem State.status_raise (e : ErrorKind) : (s.raise e).status = .faulted e := rfl
@[simp] theorem State.fault_raise (e : ErrorKind) : (s.raise e).fault = some { kind := e, addr := s.pc - 1#32, word := (s.mem.read 0#32 (s.pc - 1#32)).getD 0#32 } := rfl
@[simp] theorem State.mem_raise (e : ErrorKind) : (s.raise e).mem = s.mem := rfl
@[simp] theorem State.inPos_raise (e : ErrorKind) : (s.raise e).inPos = s.inPos := rfl
@[simp] theorem State.out_raise (e : ErrorKind) : (s.raise e).out = s.out := rfl
@[simp] theorem State.input_raise (e : ErrorKind) : (s.raise e).input = s.input := rfl
@[simp] theorem State.allocOracle_raise (e : ErrorKind) : (s.raise e).allocOracle = s.allocOracle := rfl
@[simp] theorem State.regs_raise (e : ErrorKind) : (s.raise e).regs = s.regs := rfl
@[simp] theorem State.reg_raise (e : ErrorKind) (q : Sel) : (s.raise e).reg q = s.reg q := rfl

@[simp] theorem State.pc_outputWrite (b : Byte) : (s.outputWrite b).pc = s.pc := rfl
@[simp] theorem State.status_outputWrite (b : Byte) : (s.outputWrite b).status = s.status := rfl
@[simp] theorem State.fault_outputWrite (b : Byte) : (s.outputWrite b).fault = s.fault := rfl
@[simp] theorem State.mem_outputWrite (b : Byte) : (s.outputWrite b).mem = s.mem := rfl
@[simp] theorem State.inPos_outputWrite (b : Byte) : (s.outputWrite b).inPos = s.inPos := rfl
@[simp] theorem State.out_outputWrite (b : Byte) : (s.outputWrite b).out = s.out ++ [b] := rfl
@[simp] theorem State.input_outputWrite (b : Byte) : (s.outputWrite b).input = s.input := rfl
@[simp] theorem State.allocOracle_outputWrite (b : Byte) : (s.outputWrite b).allocOracle = s.allocOracle := rfl
@[simp] theorem State.regs_outputWrite (b : Byte) : (s.outputWrite b).regs = s.regs := rfl
@[simp] theorem State.reg_outputWrite (b : Byte) (q : Sel) : (s.outputWrite b).reg q = s.reg q := rfl

@[simp] theorem State.pc_inputAdvance : (s.inputAdvance).pc = s.pc := rfl
@[simp] theorem State.status_inputAdvance : (s.inputAdvance).status = s.status := rfl
@[simp] theorem State.fault_inputAdvance : (s.inputAdvance).fault = s.fault := rfl
@[simp] theorem State.mem_inputAdvance : (s.inputAdvance).mem = s.mem := rfl
@[simp] theorem State.inPos_inputAdvance : (s.inputAdvance).inPos = s.inPos + 1 := rfl
@[simp] theorem State.out_inputAdvance : (s.inputAdvance).out = s.out := rfl
@[simp] theorem State.input_inputAdvance : (s.inputAdvance).input = s.input := rfl
@[simp] theorem State.allocOracle_inputAdvance : (s.inputAdvance).allocOracle = s.allocOracle := rfl
@[simp] theorem State.regs_inputAdvance : (s.inputAdvance).regs = s.regs := rfl
@[simp] theorem State.reg_inputAdvance (q : Sel) : (s.inputAdvance).reg q = s.reg q := rfl

end Sys2Proof.Machine
end

