-- ==== Sys2Proof/Laws/Step.lean ====
section
/-! SUPPORT. What a step and each handler can do, said once: later proofs cite these and unfold neither `step`
nor a handler. -/

namespace Sys2Proof.Machine

/-! ### The vocabulary of `Safety` on the updates -/

theorem sameRegsBut_setReg (s : State) (r : Sel) (v : Word) : SameRegsBut [r] s (s.setReg r v) := by
  intro q hq
  simp [List.mem_singleton.not.mp hq]

theorem sameButRegs_setReg (s : State) (r : Sel) (v : Word) : SameButRegs s (s.setReg r v) :=
  ⟨⟨rfl, rfl, rfl⟩, ⟨rfl, fun _ _ => rfl⟩, ⟨rfl, rfl⟩, ⟨rfl, rfl⟩⟩

/-- `State.raise` is the spec's `raise` inside a handler. -/
theorem raised_raise (e : ErrorKind) (s : State) : Raised e s (s.raise e) :=
  ⟨rfl, ⟨_, rfl, rfl⟩, rfl, fun _ _ => rfl, ⟨rfl, fun _ _ => rfl⟩, ⟨rfl, rfl⟩, ⟨rfl, rfl⟩⟩

/-! ### The step -/

/-- A step while Running, as the four stages it is (40_execution_engine.md R111 to R114). -/
theorem step_running {s : State} (hs : s.status = .running) :
    step s = match s.fetch with
      | none => .next (s.fail .programCounterOverrun s.pc 0#32)
      | some w =>
        match decode w with
        | .error _ => .next (s.advance.fail .invalidOpcode s.pc w)
        | .ok i => exec i s.advance := by
  cases s
  cases hs
  rfl

/-- A step of a stopped engine (40_execution_engine.md R110; log 4). -/
theorem step_stopped {s : State} (hs : s.status ≠ .running) : ∃ f, step s = .fault f := by
  unfold step
  cases h : s.status
  · exact absurd h hs
  · exact ⟨_, rfl⟩
  · exact ⟨_, rfl⟩

/-- Everything a step can do (40_execution_engine.md R116). -/
theorem step_eq_next {s t : State} (h : step s = .next t) :
    s.status = .running ∧
      ((s.fetch = none ∧ t = s.fail .programCounterOverrun s.pc 0#32) ∨
        (∃ w e, s.fetch = some w ∧ decode w = .error e ∧ t = s.advance.fail .invalidOpcode s.pc w) ∨
        (∃ w i, s.fetch = some w ∧ decode w = .ok i ∧ exec i s.advance = .next t)) := by
  unfold step at h
  cases hs : s.status <;> simp only [hs] at h
  · refine ⟨rfl, ?_⟩
    cases hf : s.fetch <;> simp only [hf, Host.Outcome.next.injEq] at h
    · exact .inl ⟨rfl, h.symm⟩
    · next w =>
      cases hd : decode w <;> simp only [hd, Host.Outcome.next.injEq] at h
      · exact .inr (.inl ⟨w, _, rfl, hd, h.symm⟩)
      · exact .inr (.inr ⟨w, _, rfl, hd, h⟩)
  · cases h
  · cases h

/-- The word `withFetchWord` stores is the word the next step fetches. -/
theorem fetch_withFetchWord (s : State) (nbits w : Nat) :
    (s.withFetchWord nbits w).fetch = some (tableWord nbits w) := Memory.read_placeWord _ _ _

/-! ### Runs -/

/-- A run of `k + 1` steps is a step and then a run of `k` steps. -/
theorem run_succ_eq_next {k : Nat} {s t : State} :
    Host.Core.run Sys2Proof.core (k + 1) s = .next t ↔
      ∃ u, step s = .next u ∧ Host.Core.run Sys2Proof.core k u = .next t := by
  simp only [Host.Core.run, Sys2Proof.core]
  cases step s <;> simp

/-- What every step keeps, every run keeps. -/
theorem run_keeps {P : State → Prop} (hP : ∀ s t, P s → step s = .next t → P t) {k : Nat} {s t : State}
    (hs : P s) (h : Host.Core.run Sys2Proof.core k s = .next t) : P t := by
  induction k generalizing s with
  | zero => cases h; exact hs
  | succ k ih =>
    obtain ⟨u, hu, hr⟩ := run_succ_eq_next.mp h
    exact ih (hP s u hs hu) hr

/-! ### Each handler -/

theorem execCmov_next {a b c : Sel} {s t : State} (h : execCmov a b c s = .next t) :
    (s.reg c ≠ 0#32 ∧ t = s.setReg a (s.reg b)) ∨ (s.reg c = 0#32 ∧ t = s) := by
  simp only [execCmov, nonZero, Host.Outcome.next.injEq] at h
  by_cases hc : s.reg c = 0#32 <;> simp_all

theorem execAidx_next {a b c : Sel} {s t : State} (h : execAidx a b c s = .next t) :
    (∃ v, s.mem.read (s.reg b) (s.reg c) = some v ∧ t = s.setReg a v) ∨
      (s.mem.read (s.reg b) (s.reg c) = none ∧ t = s.raise .outOfBoundsAccess) := by
  simp only [execAidx, Host.Outcome.next.injEq] at h
  cases hr : s.mem.read (s.reg b) (s.reg c) <;> simp_all

theorem execAmend_next {a b c : Sel} {s t : State} (h : execAmend a b c s = .next t) :
    (∃ m, s.mem.write (s.reg a) (s.reg b) (s.reg c) = some m ∧ t = s.setMem m) ∨
      (s.mem.write (s.reg a) (s.reg b) (s.reg c) = none ∧ t = s.raise .outOfBoundsAccess) := by
  simp only [execAmend, Host.Outcome.next.injEq] at h
  cases hr : s.mem.write (s.reg a) (s.reg b) (s.reg c) <;> simp_all

theorem execDiv_next {a b c : Sel} {s t : State} (h : execDiv a b c s = .next t) :
    (s.reg c ≠ 0#32 ∧ t = s.setReg a (divWords (s.reg b) (s.reg c))) ∨
      (s.reg c = 0#32 ∧ t = s.raise .divisionByZero) := by
  simp only [execDiv, nonZero, Host.Outcome.next.injEq] at h
  by_cases hc : s.reg c = 0#32 <;> simp_all

theorem execAlloc_next {b c : Sel} {s t : State} (h : execAlloc b c s = .next t) :
    (∃ g m, s.mem.heapAlloc (s.allocOK (s.reg c).toNat) (s.reg c) = some (g, m) ∧
        t = (s.setMem m).setReg b g) ∨
      (s.mem.heapAlloc (s.allocOK (s.reg c).toNat) (s.reg c) = none ∧ t = s.raise .allocationFailure) := by
  simp only [execAlloc, Host.Outcome.next.injEq] at h
  rcases hr : s.mem.heapAlloc (s.allocOK (s.reg c).toNat) (s.reg c) with _ | ⟨g, m⟩
  · exact .inr ⟨rfl, by simp_all⟩
  · exact .inl ⟨g, m, rfl, by simp_all⟩

theorem execAband_next {c : Sel} {s t : State} (h : execAband c s = .next t) :
    (s.reg c ≠ 0#32 ∧ s.mem.live (s.reg c) = true ∧ t = s.setMem (s.mem.heapFree (s.reg c))) ∨
      ((s.reg c = 0#32 ∨ s.mem.live (s.reg c) = false) ∧ t = s.raise .outOfBoundsAccess) := by
  simp only [execAband, Host.Outcome.next.injEq] at h
  by_cases h0 : s.reg c = 0#32 <;> cases hl : s.mem.live (s.reg c) <;> simp_all

theorem execOut_next {c : Sel} {s t : State} (h : execOut c s = .next t) :
    ((s.reg c).toNat ≤ 255 ∧ t = s.outputWrite (lowByte (s.reg c))) ∨
      (255 < (s.reg c).toNat ∧ t = s.raise .invalidOutputByte) := by
  simp only [execOut, isByte, Config.byteMax, decide_eq_true_eq, Host.Outcome.next.injEq] at h
  by_cases hc : (s.reg c).toNat ≤ 255
  · exact .inl ⟨hc, by rw [← h, if_pos hc]⟩
  · exact .inr ⟨by omega, by rw [← h, if_neg hc]⟩

theorem execInp_next {c : Sel} {s t : State} (h : execInp c s = .next t) :
    (∃ b, s.input[s.inPos]? = some b ∧ t = s.inputAdvance.setReg c (widenByte b)) ∨
      (s.input.length ≤ s.inPos ∧ t = s.setReg c Config.eofValue) := by
  simp only [execInp, State.inputByte, Host.Outcome.next.injEq] at h
  cases hr : s.input[s.inPos]? with
  | none => exact .inr ⟨List.getElem?_eq_none_iff.mp hr, by simp_all⟩
  | some b => exact .inl ⟨b, rfl, by simp_all⟩

theorem execLoadp_next {b c : Sel} {s t : State} (h : execLoadp b c s = .next t) :
    (s.reg b = 0#32 ∧ t = s.setPc (s.reg c)) ∨
      (s.reg b ≠ 0#32 ∧ ∃ a, s.mem.array? (s.reg b) = some a ∧ a.len ≠ 0 ∧ s.allocOK a.len = true ∧
        t = (s.setMem (s.mem.setProgram a)).setPc (s.reg c)) ∨
      (s.reg b ≠ 0#32 ∧ (s.mem.live (s.reg b) = false ∨ s.mem.len (s.reg b) = 0) ∧
        t = s.raise .outOfBoundsAccess) ∨
      (s.reg b ≠ 0#32 ∧ ∃ a, s.mem.array? (s.reg b) = some a ∧ a.len ≠ 0 ∧ s.allocOK a.len = false ∧
        t = s.raise .allocationFailure) := by
  simp only [execLoadp, nonZero, decide_eq_true_eq, ne_eq, ite_not, Host.Outcome.next.injEq] at h
  by_cases h0 : s.reg b = 0#32
  · exact .inl ⟨h0, by rw [← h, if_pos h0]⟩
  · rw [if_neg h0] at h
    cases ha : s.mem.array? (s.reg b) with
    | none => exact .inr (.inr (.inl ⟨h0, .inl (by simp [Memory.live, ha]), by simp_all⟩))
    | some a =>
      simp only [ha] at h
      by_cases hz : a.len = 0
      · exact .inr (.inr (.inl ⟨h0, .inr (by rw [Memory.len_of_array? ha, hz]), by rw [← h, if_pos hz]⟩))
      · rw [if_neg hz] at h
        cases hok : s.allocOK a.len
        · exact .inr (.inr (.inr ⟨h0, a, rfl, hz, hok, by simp_all⟩))
        · exact .inr (.inl ⟨h0, a, rfl, hz, hok, by simp_all⟩)

end Sys2Proof.Machine
end

