-- ==== Sys2Proof/Tests/Slice0.lean ====
section
/-! SUPPORT. Tests: expected values are those of the spec's vectors (95_test_vectors.md, Parts 1 to 3) and
worked examples; and, for every statement with hypotheses, a concrete state and operands that meet them. -/

namespace Sys2Proof.Tests

open Sys2Proof.Machine

/-! ### Helpers -/

/-- The next state of an outcome, if it is one. -/
def nextOf : Host.Outcome State Fault Refusal → Option State
  | .next t => some t
  | .fault _ => none
  | .refused _ => none

/-- An oracle that gives every request the same answer. -/
def always (b : Bool) : AllocOracle := { otherwise := b, exceptions := [] }

/-- Reset with an image and an input, some registers then set. -/
def start (image : List Word) (rs : List (Sel × Word)) (input : List Byte := []) (ok : Bool := true) : State :=
  rs.foldl (fun s p => s.setReg p.1 p.2) (State.boot image input (always ok))

/-- The same with one more array, at handle 1. -/
def startWith (image : List Word) (array : Option (List Word)) (free : List Word) (rs : List (Sel × Word))
    (ok : Bool := true) : State :=
  { start image rs [] ok with
    mem := { slots := [some (WordArray.ofWords image), array.map WordArray.ofWords], free := free } }

/-- A register after one step. -/
def regAfter (s : State) (r : Sel) : Option Word := (nextOf (step s)).map (fun t => t.reg r)

/-- What the host observes, and the program counter. -/
structure Seen where
  status : Status
  fault : Option (Nat × Word × Word)
  out : List Byte
  pc : Word
  deriving DecidableEq, Repr

/-- What the host observes after one step, and the program counter. -/
def seenAfter (s : State) : Option Seen :=
  (nextOf (step s)).map (fun t => ⟨t.observe.1, t.observe.2.1, t.observe.2.2, t.pc⟩)

/-! ### WellFormed: the one check refuses an ill-formed term (30_encoding.md R85) -/

theorem test_wellFormed_refuses_26_bits : Instr.wellFormed (.orth 0 0x2000000) = false := by decide
theorem test_wellFormed_accepts_25_bits : Instr.wellFormed (.orth 7 0x1FFFFFF) = true := by decide

/-! ### Decoding: words of 95_test_vectors.md (V1 and the programs), one for every constructor -/

theorem test_decode_cmov : decode 0x000001FF = .ok (.cmov 7 7 7) := by decide
theorem test_decode_cmov_fields : decode 0x00000053 = .ok (.cmov 1 2 3) := by decide
theorem test_decode_aidx : decode 0x1000013B = .ok (.aidx 4 7 3) := by decide
theorem test_decode_amend : decode 0x200000AC = .ok (.amend 2 5 4) := by decide
theorem test_decode_add_ignored_bits : decode 0x3FFFFE53 = .ok (.add 1 2 3) := by decide
theorem test_decode_mul : decode 0x40000053 = .ok (.mul 1 2 3) := by decide
theorem test_decode_div : decode 0x50000047 = .ok (.div 1 0 7) := by decide
theorem test_decode_nand : decode 0x600000BF = .ok (.nand 2 7 7) := by decide
theorem test_decode_halt : decode 0x7FFFFFFF = .ok (.halt 7 7 7) := by decide
theorem test_decode_alloc : decode 0x80000011 = .ok (.alloc 0 2 1) := by decide
theorem test_decode_aband : decode 0x90000002 = .ok (.aband 0 0 2) := by decide
theorem test_decode_out : decode 0xA0000007 = .ok (.out 0 0 7) := by decide
theorem test_decode_inp : decode 0xB0000001 = .ok (.inp 0 0 1) := by decide
theorem test_decode_loadp : decode 0xC000003D = .ok (.loadp 0 7 5) := by decide
theorem test_decode_orth : decode 0xDA0001FF = .ok (.orth 5 511) := by decide
theorem test_decode_orth_no_sign : decode 0xDFFFFFFF = .ok (.orth 7 0x1FFFFFF) := by decide
theorem test_decode_tag14 : decode 0xE0000000 = .error (.invalidOperation 14) := by decide
theorem test_decode_tag15 : decode 0xFFFFFFFF = .error (.invalidOperation 15) := by decide
theorem test_encode_canonical : encode (.add 1 2 3) = 0x30000053 := by decide
theorem test_encode_orth : encode (.orth 5 511) = 0xDA0001FF := by decide
theorem test_decodeTableWord : decodeTableWord 32 0xC0000017 = some (.loadp 0 2 7) := by decide

/-! ### One step each (95_test_vectors.md V2 to V9) -/

theorem test_cmov_reads_before_write : regAfter (start [0x00000051] [(1, 5), (2, 9)]) 1 = some 9 := by decide
theorem test_cmov_zero_condition : regAfter (start [0x00000053] [(1, 7), (2, 9)]) 1 = some 7 := by decide

theorem test_aidx_last_index :
    regAfter (startWith [0x10000113] (some [10, 20, 30]) [] [(2, 1), (3, 2)]) 4 = some 30 := by decide
theorem test_aidx_index_is_length :
    seenAfter (startWith [0x10000113] (some [10, 20, 30]) [] [(2, 1), (3, 3)]) =
      some ⟨.faulted .outOfBoundsAccess, some (2, 0, 0x10000113), [], 1⟩ := by decide

theorem test_amend_stores_one_word :
    (nextOf (step (startWith [0x200000AC] (some [10, 20, 30]) [] [(2, 1), (5, 1), (4, 77)]))).map
      (fun t => (t.mem.read 1 0, t.mem.read 1 1, t.mem.read 1 2)) = some (some 10, some 77, some 30) := by decide
theorem test_amend_index_is_length :
    seenAfter (startWith [0x200000AC] (some [10, 20, 30]) [] [(2, 1), (5, 3), (4, 1)]) =
      some ⟨.faulted .outOfBoundsAccess, some (2, 0, 0x200000AC), [], 1⟩ := by decide

theorem test_add_wraps : regAfter (start [0x30000053] [(2, 0xFFFFFFFF), (3, 2)]) 1 = some 1 := by decide
theorem test_add_same_register : regAfter (start [0x30000049] [(1, 3)]) 1 = some 6 := by decide
theorem test_mul_wraps : regAfter (start [0x40000053] [(2, 0xFFFFFFFF), (3, 0xFFFFFFFF)]) 1 = some 1 := by decide
theorem test_mul : regAfter (start [0x40000053] [(2, 6), (3, 7)]) 1 = some 42 := by decide
theorem test_div_is_unsigned :
    regAfter (start [0x50000053] [(1, 9), (2, 0x80000000), (3, 0xFFFFFFFF)]) 1 = some 0 := by decide
theorem test_div_by_zero : seenAfter (start [0x50000053] [(2, 7)]) =
    some ⟨.faulted .divisionByZero, some (3, 0, 0x50000053), [], 1⟩ := by decide
theorem test_nand : regAfter (start [0x60000053] [(2, 0xFFFF0000), (3, 0x00FFFF00)]) 1 = some 0xFF00FFFF := by
  decide

theorem test_halt : seenAfter (start [0x7FFFFFFF, 0xF0000000] []) = some ⟨.halted, none, [], 1⟩ := by decide

theorem test_alloc_grows : regAfter (start [0x8000001B] [(3, 5)]) 3 = some 1 := by decide
theorem test_alloc_failure : seenAfter (start [0x80000011] [(1, 2)] [] false) =
    some ⟨.faulted .allocationFailure, some (6, 0, 0x80000011), [], 1⟩ := by decide

theorem test_aband_pushes :
    (nextOf (step (startWith [0x90000002] (some [1]) [] [(2, 1)]))).map (fun t => (t.mem.slots[1]?, t.mem.free)) =
      some (some none, [1]) := by decide
theorem test_aband_handle_zero : seenAfter (start [0x90000000] []) =
    some ⟨.faulted .outOfBoundsAccess, some (2, 0, 0x90000000), [], 1⟩ := by decide

theorem test_out_255 : seenAfter (start [0xA0000000] [(0, 255)]) = some ⟨.running, none, [0xFF], 1⟩ := by decide
theorem test_out_256 : seenAfter (start [0xA0000000] [(0, 256)]) =
    some ⟨.faulted .invalidOutputByte, some (4, 0, 0xA0000000), [], 1⟩ := by decide

theorem test_inp_zero_extends : regAfter (start [0xB0000000] [] [0xFF]) 0 = some 0x000000FF := by decide
theorem test_inp_end_of_stream : regAfter (start [0xB0000000] []) 0 = some 0xFFFFFFFF := by decide

theorem test_loadp_copies :
    (nextOf (step (startWith [0xC0000017] (some [0xD0000042, 0xA0000000]) [] [(2, 1), (7, 1)]))).map
      (fun t => (t.mem.slots[0]?, t.pc)) =
      some (some (some (WordArray.ofWords [0xD0000042, 0xA0000000])), 1) := by decide
theorem test_loadp_zero_length : seenAfter (startWith [0xC0000010] (some []) [] [(2, 1)]) =
    some ⟨.faulted .outOfBoundsAccess, some (2, 0, 0xC0000010), [], 1⟩ := by decide

theorem test_orth : regAfter (start [0xD1FFFFFF] [(0, 0xFFFFFFFF)]) 0 = some 0x01FFFFFF := by decide

/-! ### The step (V10) -/

theorem test_empty_image_overruns : seenAfter State.reset =
    some ⟨.faulted .programCounterOverrun, some (5, 0, 0), [], 0⟩ := by decide
theorem test_invalid_opcode : seenAfter (start [0xE0000000] []) =
    some ⟨.faulted .invalidOpcode, some (1, 0, 0xE0000000), [], 1⟩ := by decide
theorem test_withFetchWord : regAfter (State.reset.withFetchWord 32 0xD2000041) 1 = some 0x41 := by decide
theorem test_image_is_big_endian : imageOfBytes [0xD0, 0, 0, 0x41, 0xA0, 0, 0, 0] = some [0xD0000041, 0xA0000000] := by
  decide
theorem test_image_of_odd_size : imageOfBytes [0xD0, 0, 0, 0x41, 0xA0] = none := by decide

/-! ### Witnesses: each statement's hypotheses are met together -/

/-- A program of one word, everything else as reset leaves it. -/
def one (w : Word) (rs : List (Sel × Word) := []) : State := start [w] rs

/-- Array 1 is `[10, 20, 30]`; its handle stands in register 2. -/
def three (w : Word) (i : Word) (ok : Bool := true) : State :=
  startWith [w] (some [10, 20, 30]) [] [(2, 1), (3, i), (5, i), (4, 77)] ok

theorem witness_DecodeAndEncodeAgree :
    Instr.wellFormed (.orth 7 0x1FFFFFF) = true ∧ decode 0x3FFFFE53 = .ok (.add 1 2 3) ∧
      bits 0x3FFFFE53 28 4 ≠ 13 ∧ decode 0xDA0001FF = .ok (.orth 5 511) ∧ bits 0xDA0001FF 28 4 = 13 := by decide

theorem witness_DecodeReadsItsFields :
    bits 0x000001FF 28 4 = 0 ∧ bits 0xCFFFFFFF 28 4 = 12 ∧ bits 0xD0000000 28 4 = 13 ∧
      14 ≤ bits 0xE0000000 28 4 := by decide

theorem witness_InvalidWordsRaiseInvalidOpcode :
    (one 0xE0000000).status = .running ∧
      (one 0xE0000000).mem.read 0#32 (one 0xE0000000).pc = some 0xE0000000 ∧
      0xE0000000 ≤ (0xE0000000 : Word).toNat := by decide

theorem witness_IgnoredBitsHaveNoEffect_decode :
    bits 0x30000053 28 4 < 13 ∧ bits 0x30000053 28 4 = bits 0x3FFFFE53 28 4 ∧
      bits 0x30000053 0 9 = bits 0x3FFFFE53 0 9 := by decide

theorem witness_IgnoredBitsHaveNoEffect_exec :
    (decode 0x70000000 = .ok (.halt 0 0 0) ∧ decode 0x7FFFFFFF = .ok (.halt 7 7 7) ∧
      bits 0x70000000 28 4 = bits 0x7FFFFFFF 28 4 ∧ bits 0x70000000 28 4 = 7) ∧
    (decode 0x80000011 = .ok (.alloc 0 2 1) ∧ decode 0x800001D1 = .ok (.alloc 7 2 1) ∧
      bits 0x80000011 28 4 = bits 0x800001D1 28 4 ∧ bits 0x80000011 28 4 = 8 ∧
      bits 0x80000011 0 6 = bits 0x800001D1 0 6) ∧
    (decode 0xB0000001 = .ok (.inp 0 0 1) ∧ decode 0xB00001F9 = .ok (.inp 7 7 1) ∧
      bits 0xB0000001 28 4 = bits 0xB00001F9 28 4 ∧ bits 0xB0000001 28 4 = 11 ∧
      bits 0xB0000001 0 3 = bits 0xB00001F9 0 3) := by decide

theorem witness_StepRunsTheDecodedInstruction :
    (one 0xD2000041).status = .running ∧
      (one 0xD2000041).mem.read 0#32 (one 0xD2000041).pc = some 0xD2000041 ∧
      decode 0xD2000041 = .ok (.orth 1 0x41) := by decide

theorem witness_RunningOffTheEndFaults :
    ((one 0x70000000).setPc 1).status = .running ∧
      ((one 0x70000000).setPc 1).mem.len 0#32 ≤ ((one 0x70000000).setPc 1).pc.toNat := by decide

theorem witness_StoppedEngineTakesNoStep : (one 0x70000000).halt.status ≠ .running := by decide

theorem witness_RunningEngineAlwaysSteps : (one 0x70000000).status = .running := by decide

theorem witness_OnlyHaltHalts : ∃ t, step (one 0x70000000) = .next t ∧ t.status = .halted := ⟨_, rfl, rfl⟩

theorem witness_ErrorsArePrecise_handler :
    ∃ t, step (one 0x50000053) = .next t ∧ t.status = .faulted .divisionByZero := ⟨_, rfl, rfl⟩

theorem witness_ErrorsArePrecise_overrun :
    ∃ t, step State.reset = .next t ∧ t.status = .faulted .programCounterOverrun := ⟨_, rfl, rfl⟩

theorem witness_ErrorsAreRaisedExactlyWhenTheTableSays :
    (three 0x10000113 3).mem.slots.length ≤ 2 ^ 32 ∧ ∃ t, step (three 0x10000113 3) = .next t ∧
      t.status = .faulted .outOfBoundsAccess := ⟨by decide, _, rfl, rfl⟩

theorem witness_ConditionalMoveEffect :
    (one 0 [(3, 0x80000000)]).reg 3 ≠ 0#32 ∧ (one 0).reg 3 = 0#32 := by decide

theorem witness_ArrayIndexEffect :
    ((three 0 2).mem.live ((three 0 2).reg 2) = true ∧
      ((three 0 2).reg 3).toNat < (three 0 2).mem.len ((three 0 2).reg 2)) ∧
    (three 0 3).mem.len ((three 0 3).reg 2) ≤ ((three 0 3).reg 3).toNat ∧
    (one 0 [(2, 1)]).mem.live ((one 0 [(2, 1)]).reg 2) = false := by decide

theorem witness_ArrayAmendmentEffect :
    ((three 0 2).mem.live ((three 0 2).reg 2) = true ∧
      ((three 0 2).reg 5).toNat < (three 0 2).mem.len ((three 0 2).reg 2)) ∧
    (three 0 3).mem.len ((three 0 3).reg 2) ≤ ((three 0 3).reg 5).toNat := by decide

theorem witness_DivisionEffect : (one 0 [(3, 1)]).reg 3 ≠ 0#32 ∧ (one 0).reg 3 = 0#32 := by decide

theorem witness_AllocationEffect_reuse :
    let s := startWith [0x80000011] none [1] []
    s.allocOK (s.reg 1).toNat = true ∧ s.mem.free = 1 :: [] ∧ (1 : Word).toNat < s.mem.slots.length := by decide

theorem witness_AllocationEffect_grow :
    let s := one 0x80000011 [(1, 0xFFFFFFFF)]
    s.allocOK (s.reg 1).toNat = true ∧ s.mem.free = [] ∧ s.mem.slots.length < 2 ^ 32 := by decide

theorem witness_AllocationEffect_failure :
    (start [0x80000011] [(1, 2)] [] false).allocOK ((start [0x80000011] [(1, 2)] [] false).reg 1).toNat = false := by
  decide

/-- The heap at its limit of 2^32 slots, nothing free. -/
theorem witness_AllocationEffect_limit :
    ∃ s : State, s.mem.free = [] ∧ s.mem.slots.length = 2 ^ 32 ∧ s.allocOK (s.reg 1).toNat = true :=
  ⟨{ one 0x80000011 with mem := { slots := List.replicate (2 ^ 32) none, free := [] } }, rfl,
    List.length_replicate, rfl⟩

theorem witness_AbandonmentEffect :
    ((three 0 0).reg 2 ≠ 0#32 ∧ (three 0 0).mem.live ((three 0 0).reg 2) = true) ∧ (three 0 0).reg 0 = 0#32 ∧
      (three 0 0).mem.live ((three 0 0).reg 4) = false := by decide

theorem witness_OutputEffect :
    ((one 0 [(0, 255)]).reg 0).toNat ≤ 255 ∧ 255 < ((one 0 [(0, 256)]).reg 0).toNat := by decide

theorem witness_InputEffect :
    (start [0xB0000000] [] [0x48]).input[(start [0xB0000000] [] [0x48]).inPos]? = some 0x48 ∧
      (one 0xB0000000).input.length ≤ (one 0xB0000000).inPos := by decide

theorem witness_LoadProgramEffect_jump : (one 0xC0000001).reg 0 = 0#32 := by decide

theorem witness_LoadProgramEffect_copy :
    let s := three 0xC0000017 0
    s.reg 2 ≠ 0#32 ∧ s.mem.live (s.reg 2) = true ∧ s.mem.len (s.reg 2) ≠ 0 ∧
      s.allocOK (s.mem.len (s.reg 2)) = true := by decide

theorem witness_LoadProgramEffect_outOfBounds :
    let s := startWith [0xC0000010] (some []) [] [(2, 1), (3, 2)]
    s.reg 2 ≠ 0#32 ∧ s.mem.len (s.reg 2) = 0 ∧ s.reg 3 ≠ 0#32 ∧ s.mem.live (s.reg 3) = false := by decide

theorem witness_LoadProgramEffect_allocationFailure :
    let s := three 0xC0000017 0 false
    s.reg 2 ≠ 0#32 ∧ s.mem.live (s.reg 2) = true ∧ s.mem.len (s.reg 2) ≠ 0 ∧
      s.allocOK (s.mem.len (s.reg 2)) = false := by decide

theorem witness_OrthographyEffect : bits 0xDFFFFFFF 28 4 = 13 := by decide

theorem witness_ReadSucceedsExactlyOnValidAddresses :
    (three 0 0).mem.live 1 = true ∧ (three 0 0).mem.read 1 2 = some 30 ∧ (2 : Word).toNat < (three 0 0).mem.len 1 := by
  decide

theorem witness_FreePoolIsLifo_push :
    (three 0 0).status = .running ∧ ∃ t, exec (.aband 0 0 2) (three 0 0) = .next t ∧ t.status = .running :=
  ⟨rfl, _, rfl, rfl⟩

theorem witness_FreePoolIsLifo_pop :
    let s := startWith [0] none [1] []
    s.status = .running ∧ s.mem.free = 1 :: [] ∧ ∃ t, exec (.alloc 0 4 0) s = .next t ∧ t.status = .running :=
  ⟨rfl, rfl, _, rfl, rfl⟩

/-- Also the witness of ReusedHandleReadsZero: the handle abandoned stands in register 2 and, after, still does. -/
theorem witness_StaleHandleFaults_ReusedHandleReadsZero :
    (three 0 0).status = .running ∧ ∃ t, exec (.aband 0 0 2) (three 0 0) = .next t ∧ t.status = .running ∧
      t.reg 2 = (three 0 0).reg 2 ∧ ∃ u, exec (.alloc 0 6 4) t = .next u ∧ u.status = .running :=
  ⟨rfl, _, rfl, rfl, rfl, _, rfl, rfl⟩

/-- A state that meets the invariant. -/
theorem inv_one : (one 0x80000011).Inv := by
  change (State.boot [0x80000011] [] (always true)).Inv
  refine ⟨Memory.wf_boot (by simp) _ _, ⟨?_, ⟨?_, ?_⟩, ⟨rfl, ?_⟩, ?_⟩, ?_, ?_⟩
  · intro h hlt
    have h0 : h = 0#32 := BitVec.toNat_inj.mp (by simpa [State.boot] using hlt)
    subst h0
    simp [State.boot, Memory.live, Memory.array?]
  all_goals simp [State.boot, State.engineConsistent]

theorem witness_AllocatedHandleIsFresh :
    (one 0x80000011).Inv ∧ (one 0x80000011).status = .running ∧
      ∃ t, exec (.alloc 0 2 1) (one 0x80000011) = .next t ∧ t.status = .running := ⟨inv_one, rfl, _, rfl, rfl⟩

theorem witness_StoreIsSeenByTheNextFetch :
    let s := (start [0x2000001A, 0xF0000000] [(3, 1), (2, 0x70000000)]).setPc 1
    s.status = .running ∧ s.reg 0 = 0#32 ∧ s.reg 3 = s.pc ∧ decode (s.reg 2) = .ok (.halt 0 0 0) ∧
      ∃ t, exec (.amend 0 3 2) s = .next t ∧ t.status = .running := ⟨rfl, rfl, rfl, rfl, _, rfl, rfl⟩

theorem witness_LoadedProgramIsAnIndependentCopy :
    let s := three 0xC0000017 0
    s.status = .running ∧ s.reg 2 ≠ 0#32 ∧ ∃ t, exec (.loadp 0 2 7) s = .next t ∧ t.status = .running ∧
      ∃ u, exec (.amend 2 3 4) t = .next u ∧ t.reg 2 = s.reg 2 ∧ t.reg 7 = 0#32 :=
  ⟨rfl, by decide, _, rfl, rfl, _, rfl, rfl, rfl⟩

theorem witness_StoringThePresentValueChangesNothing :
    let s := startWith [0] (some [10, 0, 30]) [] [(2, 1), (3, 1)]
    s.mem.wf ∧ s.mem.read (s.reg 2) (s.reg 3) = some (s.reg 0) := by decide

theorem witness_HandlersTouchOnlyTheirState :
    ∃ t, exec (.add 1 2 3) (one 0) = .next t ∧ (∀ a b c, Instr.add 1 2 3 ≠ .loadp a b c) := ⟨_, rfl, nofun⟩

theorem witness_OnlyAllocationAndAbandonmentChangeTopology :
    (three 0 0).mem.live 0#32 = true ∧ (∃ t, exec (.amend 2 3 4) (three 0 0) = .next t) ∧
      (∀ a b c, Instr.amend 2 3 4 ≠ .alloc a b c ∧ Instr.amend 2 3 4 ≠ .aband a b c) :=
  ⟨rfl, ⟨_, rfl⟩, fun _ _ _ => ⟨nofun, nofun⟩⟩

theorem witness_OnlyTheTablesRegisterIsWritten : ∃ t, exec (.alloc 0 2 1) (one 0) = .next t := ⟨_, rfl⟩

theorem witness_OnlyTheTablesRegistersAreRead :
    (∃ t, exec (.add 1 2 3) (one 0 [(2, 5)]) = .next t) ∧
      ∀ r ∈ Instr.reads (.add 1 2 3), ((one 0 [(2, 5)]).withRegs (one 0 [(2, 5), (1, 9)]).regs).reg r =
        (one 0 [(2, 5)]).reg r := ⟨⟨_, rfl⟩, by decide⟩

theorem witness_OnlyLoadProgramJumps_IncrementNeverWraps :
    (one 0x30000053).mem.wf ∧ (∃ t, step (one 0x30000053) = .next t) ∧
      (one 0x30000053).mem.read 0#32 (one 0x30000053).pc = some 0x30000053 ∧ bits 0x30000053 28 4 ≠ 12 :=
  ⟨by decide, ⟨_, rfl⟩, by decide, by decide⟩

theorem witness_OutputOnlyGrows_SlotsOnlyGrow :
    (∃ t, step (one 0xA0000000 [(0, 65)]) = .next t ∧ t.out = [65]) ∧
      ∃ t, step (one 0x80000011) = .next t ∧ t.mem.slots.length = 2 := ⟨⟨_, rfl, rfl⟩, ⟨_, rfl, rfl⟩⟩

theorem witness_ResetBuildsTheInitialState : [(0x70000000 : Word)].length < 2 ^ 32 := by decide

theorem witness_ImageWordsAreBigEndian :
    ∃ s, State.bootBytes [0xD0, 0, 0, 0x41] [] (always true) = some s ∧
      [(0xD0 : Byte), 0, 0, 0x41][4 * (0 : Word).toNat + 3]? = some 0x41 := ⟨_, rfl, rfl⟩

theorem witness_EveryStepKeepsTheInvariant :
    (one 0x80000011).Inv ∧ ∃ t, step (one 0x80000011) = .next t := ⟨inv_one, _, rfl⟩

theorem witness_EveryRunKeepsTheInvariant :
    [(0x80000011 : Word)].length < 2 ^ 32 ∧
      ∃ t, Host.Core.run Sys2Proof.core 2 (State.boot [0x80000011] [] (always true)) = .next t :=
  ⟨by decide, _, rfl⟩

theorem witness_RunIsSafeExactlyWhenNoErrorConditionArises :
    (one 0x80000011).Inv ∧ (one 0x80000011).status = .running := ⟨inv_one, rfl⟩

end Sys2Proof.Tests
end

/-! ## What a three-register word decodes to, and which of its bits have an effect
(30_encoding.md sections 1 and 4) -/

namespace Sys2Proof.Machine

/-! ### The fields of a word -/

/-- A field that lies within the low `n` bits of a word is a field of those bits. -/
theorem bits_eq_of_low {w v : Word} {n lo k : Nat} (hn : lo + k ≤ n) (h : bits w 0 n = bits v 0 n) :
    bits w lo k = bits v lo k := by
  have field (u : Word) : bits u lo k = bits u 0 n / 2 ^ lo % 2 ^ k := by
    obtain ⟨m, rfl⟩ := Nat.exists_eq_add_of_le (show lo ≤ n by omega)
    rw [bits, bits, pow_zero, Nat.div_one, pow_add, Nat.mod_mul_right_div_self,
      Nat.mod_mod_of_dvd _ (pow_dvd_pow 2 (by omega))]
  rw [field w, field v, h]

/-- Words that agree on their low `n` bits name the same registers there (30_encoding.md R82). -/
theorem selAt_eq_of_low {w v : Word} {n lo : Nat} (hn : lo + 3 ≤ n) (h : bits w 0 n = bits v 0 n) :
    selAt w lo = selAt v lo := Fin.ext (bits_eq_of_low hn h)

/-! ### The three-register instructions, by tag -/

/-- The operation of each three-register tag (30_encoding.md R86; the spec's decision D1, log 8). -/
def r3Instr : Fin 13 → Sel → Sel → Sel → Instr
  | 0 => .cmov
  | 1 => .aidx
  | 2 => .amend
  | 3 => .add
  | 4 => .mul
  | 5 => .div
  | 6 => .nand
  | 7 => .halt
  | 8 => .alloc
  | 9 => .aband
  | 10 => .out
  | 11 => .inp
  | 12 => .loadp

/-- The decoder on the three-register format: the tag and the three selectors decide (30_encoding.md R83). -/
theorem decodesR3_r3Instr (tag : Fin 13) : DecodesR3 tag (r3Instr tag) := by
  intro w hw
  rw [← selA_eq, ← selB_eq, ← selC_eq, decode, tagField_toNat, hw]
  fin_cases tag <;> rfl

/-- A word with a tag below 13 decodes to no other instruction than that of its tag and selectors. -/
theorem eq_r3Instr_of_decode {w : Word} {i : Instr} {tag : Fin 13} (hi : decode w = .ok i)
    (hw : bits w 28 4 = tag) : i = r3Instr tag (selAt w 6) (selAt w 3) (selAt w 0) :=
  Except.ok.inj (hi.symm.trans (decodesR3_r3Instr tag w hw))

/-! ### The selectors an operation does not use (30_encoding.md R88) -/

/-- Halt uses no selector. -/
theorem exec_r3Instr_ignores_abc {tag : Fin 13} (h : tag.val = 7) (a b c a' b' c' : Sel) (s : State) :
    exec (r3Instr tag a b c) s = exec (r3Instr tag a' b' c') s := by
  obtain rfl : tag = 7 := Fin.ext h
  rfl

/-- Allocation and LoadProgram do not use A. -/
theorem exec_r3Instr_ignores_a {tag : Fin 13} (h : tag.val = 8 ∨ tag.val = 12) (a a' b c : Sel) (s : State) :
    exec (r3Instr tag a b c) s = exec (r3Instr tag a' b c) s := by
  obtain rfl | rfl : tag = 8 ∨ tag = 12 := h.imp Fin.ext Fin.ext
  · rfl
  · rfl

/-- Abandonment, Output and Input use neither A nor B. -/
theorem exec_r3Instr_ignores_ab {tag : Fin 13} (h : tag.val = 9 ∨ tag.val = 10 ∨ tag.val = 11)
    (a b a' b' c : Sel) (s : State) : exec (r3Instr tag a b c) s = exec (r3Instr tag a' b' c) s := by
  obtain rfl | rfl | rfl : tag = 9 ∨ tag = 10 ∨ tag = 11 := h.imp Fin.ext (Or.imp Fin.ext Fin.ext)
  · rfl
  · rfl
  · rfl

/-! ### The statement -/

/-- Equal tags and equal low nine bits give equal operations and equal selectors. -/
theorem decode_eq_of_tag_of_low {w v : Word} (hr3 : bits w 28 4 < 13) (htag : bits w 28 4 = bits v 28 4)
    (hlow : bits w 0 9 = bits v 0 9) : decode w = decode v := by
  have hw := decodesR3_r3Instr ⟨bits w 28 4, hr3⟩ w rfl
  have hv := decodesR3_r3Instr ⟨bits w 28 4, hr3⟩ v htag.symm
  rw [hw, hv, selAt_eq_of_low (lo := 6) (by decide) hlow, selAt_eq_of_low (lo := 3) (by decide) hlow,
    selAt_eq_of_low (lo := 0) (by decide) hlow]

/-- Words of one tag have the same execution when they agree on the selectors that the operation uses. -/
theorem exec_eq_of_used_selectors {w v : Word} {i j : Instr} (s : State) (hi : decode w = .ok i)
    (hj : decode v = .ok j) (htag : bits w 28 4 = bits v 28 4)
    (hused : bits w 28 4 = 7 ∨ ((bits w 28 4 = 8 ∨ bits w 28 4 = 12) ∧ bits w 0 6 = bits v 0 6) ∨
      ((bits w 28 4 = 9 ∨ bits w 28 4 = 10 ∨ bits w 28 4 = 11) ∧ bits w 0 3 = bits v 0 3)) :
    exec i s = exec j s := by
  obtain ⟨tag, hw⟩ : ∃ tag : Fin 13, bits w 28 4 = tag := ⟨⟨bits w 28 4, by omega⟩, rfl⟩
  rw [eq_r3Instr_of_decode hi hw, eq_r3Instr_of_decode hj (htag.symm.trans hw)]
  rw [hw] at hused
  rcases hused with hnone | ⟨hbc, hlow⟩ | ⟨hc, hlow⟩
  · exact exec_r3Instr_ignores_abc hnone ..
  · rw [selAt_eq_of_low (lo := 3) (by decide) hlow, selAt_eq_of_low (lo := 0) (by decide) hlow]
    exact exec_r3Instr_ignores_a hbc ..
  · rw [selAt_eq_of_low (lo := 0) (by decide) hlow]
    exact exec_r3Instr_ignores_ab hc ..

/-- Settles O4: a three-register word decodes by its tag and its low nine bits alone, and the handlers of tags 7
to 12 are given only the selectors they use. -/
theorem ignoredBitsHaveNoEffect : Obligations.IgnoredBitsHaveNoEffect :=
  ⟨fun _ _ hr3 htag hlow => decode_eq_of_tag_of_low hr3 htag hlow,
    fun _ _ _ _ s hi hj htag hused => exec_eq_of_used_selectors s hi hj htag hused⟩

end Sys2Proof.Machine

/-! ## Allocation and Abandonment that succeed, and the order in which handles are reused
(45_heap_management.md R165, R169; 10_state.md R32) -/

namespace Sys2Proof.Machine

/-- An Abandonment that leaves the engine Running freed the handle (R169). -/
theorem exec_aband_running {a b c : Sel} {s t : State} (h : exec (.aband a b c) s = .next t)
    (ht : t.status = .running) :
    s.reg c ≠ 0#32 ∧ s.mem.live (s.reg c) = true ∧ t = s.setMem (s.mem.heapFree (s.reg c)) := by
  obtain hfreed | ⟨_, rfl⟩ := execAband_next h
  · exact hfreed
  · simp at ht

/-- An Allocation that leaves the engine Running was granted, and `x[B]` holds the handle (R165). -/
theorem exec_alloc_running {a b c : Sel} {s t : State} (h : exec (.alloc a b c) s = .next t)
    (ht : t.status = .running) :
    ∃ g m, s.mem.heapAlloc (s.allocOK (s.reg c).toNat) (s.reg c) = some (g, m) ∧
      t = (s.setMem m).setReg b g := by
  obtain hgranted | ⟨_, rfl⟩ := execAlloc_next h
  · exact hgranted
  · simp at ht

/-- `HeapAlloc` with a handle on the free stack returns the top and pops it (R166). -/
theorem Memory.heapAlloc_pops {m n : Memory} {ok : Bool} {k g h : Word} {rest : List Word}
    (hfree : m.free = h :: rest) (e : m.heapAlloc ok k = some (g, n)) : g = h ∧ n.free = rest := by
  obtain ⟨_, ⟨rest', hreuse, rfl⟩ | ⟨hempty, _⟩⟩ := Memory.heapAlloc_eq_some.mp e
  · obtain ⟨rfl, rfl⟩ := List.cons.inj (hfree.symm.trans hreuse)
    exact ⟨rfl, rfl⟩
  · simp [hfree] at hempty

theorem exec_aband_pushes {a b c : Sel} {s t : State} (h : exec (.aband a b c) s = .next t)
    (ht : t.status = .running) : t.mem.free = s.reg c :: s.mem.free := by
  obtain ⟨_, _, rfl⟩ := exec_aband_running h ht
  simp

theorem exec_alloc_pops {a b c : Sel} {s t : State} {g : Word} {rest : List Word}
    (hfree : s.mem.free = g :: rest) (h : exec (.alloc a b c) s = .next t) (ht : t.status = .running) :
    t.reg b = g ∧ t.mem.free = rest := by
  obtain ⟨g', m, halloc, rfl⟩ := exec_alloc_running h ht
  obtain ⟨rfl, hrest⟩ := Memory.heapAlloc_pops hfree halloc
  exact ⟨by simp, by simpa using hrest⟩

/-- No handle is free after reset (70_reset_and_hazards.md R260). -/
@[simp] theorem State.free_boot (image : List Word) (input : List Byte) (oracle : AllocOracle) :
    (State.boot image input oracle).mem.free = [] := rfl

/-- Settles O28: HeapFree conses the handle, HeapAlloc takes the head, and reset starts with no free handle. -/
theorem freePoolIsLifo : Obligations.FreePoolIsLifo :=
  ⟨fun _ _ _ _ _ _ h ht => exec_aband_pushes h ht,
    fun _ _ _ _ _ _ _ _ hfree h ht => exec_alloc_pops hfree h ht,
    State.free_boot⟩

end Sys2Proof.Machine

/-! ## Decoding and encoding agree, and the words that do not decode
(30_encoding.md R87, R90, R91; 40_execution_engine.md R113) -/

namespace Sys2Proof.Machine

/-! ### The two formats -/

/-- An instruction is of format R3, with its tag, or the one instruction of format IMM
(30_encoding.md section 1). -/
theorem eq_r3Instr_or_orth (i : Instr) :
    (∃ tag a b c, i = r3Instr tag a b c) ∨ ∃ r imm, i = .orth r imm := by
  cases i with
  | cmov a b c => exact .inl ⟨0, a, b, c, rfl⟩
  | aidx a b c => exact .inl ⟨1, a, b, c, rfl⟩
  | amend a b c => exact .inl ⟨2, a, b, c, rfl⟩
  | add a b c => exact .inl ⟨3, a, b, c, rfl⟩
  | mul a b c => exact .inl ⟨4, a, b, c, rfl⟩
  | div a b c => exact .inl ⟨5, a, b, c, rfl⟩
  | nand a b c => exact .inl ⟨6, a, b, c, rfl⟩
  | halt a b c => exact .inl ⟨7, a, b, c, rfl⟩
  | alloc a b c => exact .inl ⟨8, a, b, c, rfl⟩
  | aband a b c => exact .inl ⟨9, a, b, c, rfl⟩
  | out a b c => exact .inl ⟨10, a, b, c, rfl⟩
  | inp a b c => exact .inl ⟨11, a, b, c, rfl⟩
  | loadp a b c => exact .inl ⟨12, a, b, c, rfl⟩
  | orth r imm => exact .inr ⟨r, imm, rfl⟩

/-- The encoder on the three-register format (30_encoding.md R91). -/
theorem encode_r3Instr (tag : Fin 13) (a b c : Sel) : encode (r3Instr tag a b c) = encodeR3 tag a b c := by
  fin_cases tag <;> rfl

/-- The decoder on the immediate format (30_encoding.md R84). -/
theorem decode_of_tag_eq_thirteen {w : Word} (hw : bits w 28 4 = 13) :
    decode w = .ok (.orth (selAt w 25) (immField w)) := by
  rw [← selImm_eq, decode, tagField_toNat, hw]
  rfl

/-- Tags 14 and 15 are the invalid operations (30_encoding.md R87). -/
theorem decode_of_fourteen_le_tag {w : Word} (hw : 14 ≤ bits w 28 4) :
    decode w = .error (.invalidOperation (tagField w)) := by
  have hlt := bits_lt w 28 4
  obtain htag | htag : bits w 28 4 = 14 ∨ bits w 28 4 = 15 := by omega
  · rw [decode, tagField_toNat, htag]
    rfl
  · rw [decode, tagField_toNat, htag]
    rfl

/-! ### The illegal words -/

/-- A word is illegal exactly when its tag is 14 or 15. -/
theorem decode_eq_error_iff (w : Word) : (∃ e, decode w = .error e) ↔ 14 ≤ bits w 28 4 := by
  refine ⟨fun ⟨e, he⟩ => ?_, fun hw => ⟨_, decode_of_fourteen_le_tag hw⟩⟩
  by_contra! hlegal
  obtain hr3 | himm : bits w 28 4 < 13 ∨ bits w 28 4 = 13 := by omega
  · exact nomatch he.symm.trans (decodesR3_r3Instr ⟨_, hr3⟩ w rfl)
  · exact nomatch he.symm.trans (decode_of_tag_eq_thirteen himm)

/-- The words with tag 14 or 15 are those from 14 * 2^28 up. -/
theorem fourteen_le_tag_iff (w : Word) : 14 ≤ bits w 28 4 ↔ 0xE0000000 ≤ w.toNat := by
  have := w.isLt
  rw [bits]
  omega

/-- Stage 3 on a fetched word that does not decode (40_execution_engine.md R113). -/
theorem step_of_decode_error {s : State} {w : Word} {e : DecodeError} (hs : s.status = .running)
    (hfetch : s.fetch = some w) (he : decode w = .error e) :
    step s = .next (s.advance.fail .invalidOpcode s.pc w) := by
  simp only [step_running hs, hfetch, he]

/-- Settles O3: the illegal tags are those of the words from 0xE0000000 up, and the step that fetches one
increments `pc` and raises the error, which writes the status and the fault record alone. -/
theorem invalidWordsRaiseInvalidOpcode : Obligations.InvalidWordsRaiseInvalidOpcode := by
  have illegal (w : Word) := (decode_eq_error_iff w).trans (fourteen_le_tag_iff w)
  refine ⟨illegal, fun s w hs hfetch hw => ?_⟩
  obtain ⟨e, he⟩ := (illegal w).mpr hw
  exact ⟨_, step_of_decode_error hs hfetch he, rfl, rfl, rfl, fun _ _ => rfl, ⟨rfl, fun _ _ => rfl⟩,
    ⟨rfl, rfl⟩, rfl, rfl⟩

/-! ### Decoding inverts encoding -/

/-- Every three-register instruction is read back whole, unused selectors included. -/
theorem decode_encode_r3Instr (tag : Fin 13) (a b c : Sel) :
    decode (encode (r3Instr tag a b c)) = .ok (r3Instr tag a b c) := by
  obtain ⟨htag, ha, hb, hc⟩ := fields_encodeR3 (show tag.val < 16 by omega) a b c
  rw [encode_r3Instr, decodesR3_r3Instr tag _ htag, ha, hb, hc]

/-- Orthography is read back when its immediate fits in 25 bits (30_encoding.md R85). -/
theorem decode_encode_orth (r : Sel) {imm : Word} (h : imm.toNat ≤ Config.immMax) :
    decode (encode (.orth r imm)) = .ok (.orth r imm) := by
  obtain ⟨htag, hr, himm⟩ := fields_encodeImm r imm
  have hfield : immField (encodeImm r imm) = imm := by
    apply BitVec.eq_of_toNat_eq
    rw [immField_toNat, himm]
    exact Nat.mod_eq_of_lt (Nat.lt_succ_of_le h)
  rw [encode, decode_of_tag_eq_thirteen htag, hr, hfield]

theorem decode_encode {i : Instr} (hi : i.wellFormed = true) : decode (encode i) = .ok i := by
  obtain ⟨tag, a, b, c, rfl⟩ | ⟨r, imm, rfl⟩ := eq_r3Instr_or_orth i
  · exact decode_encode_r3Instr tag a b c
  · exact decode_encode_orth r (of_decide_eq_true hi)

/-! ### Encoding gives the canonical word -/

/-- The low nine bits are the three selectors (30_encoding.md R82). -/
theorem bits_low_nine (w : Word) :
    bits w 0 9 = (selAt w 6).val * 64 + (selAt w 3).val * 8 + (selAt w 0).val := by
  simp only [selAt, bits]
  omega

/-- A word is its tag, bits 27 to 25 and bits 24 to 0. -/
theorem toNat_eq_imm_fields (w : Word) :
    w.toNat = bits w 28 4 * 2 ^ 28 + (selAt w 25).val * 2 ^ 25 + bits w 0 25 := by
  have := w.isLt
  simp only [selAt, bits]
  omega

/-- The canonical word of the selectors of `w` has the low nine bits of `w`. -/
theorem bits_low_nine_encodeR3 {tag : Nat} (h : tag < 16) (w : Word) :
    bits (encodeR3 tag (selAt w 6) (selAt w 3) (selAt w 0)) 0 9 = bits w 0 9 := by
  obtain ⟨-, ha, hb, hc⟩ := fields_encodeR3 h (selAt w 6) (selAt w 3) (selAt w 0)
  rw [bits_low_nine, ha, hb, hc, ← bits_low_nine]

/-- The encoding of what a word with tag 13 decodes to, by the fields of the word. -/
theorem encode_orth_toNat_fields (w : Word) :
    (encode (.orth (selAt w 25) (immField w))).toNat =
      13 * 2 ^ 28 + (selAt w 25).val * 2 ^ 25 + bits w 0 25 := by
  rw [encode, encodeImm_toNat, immField_toNat, Nat.mod_eq_of_lt (bits_lt w 0 25)]

/-- A word that decodes and whose tag is not 13 encodes to its tag and selectors, the middle bits cleared. -/
theorem encode_of_decode_r3 {w : Word} {i : Instr} (hi : decode w = .ok i) (hw : bits w 28 4 ≠ 13) :
    bits w 28 4 < 13 ∧ encode i = encodeR3 (bits w 28 4) (selAt w 6) (selAt w 3) (selAt w 0) := by
  have hlegal : ¬ 14 ≤ bits w 28 4 := fun h => nomatch hi.symm.trans (decode_of_fourteen_le_tag h)
  have hr3 : bits w 28 4 < 13 := by omega
  exact ⟨hr3, by rw [eq_r3Instr_of_decode (tag := ⟨_, hr3⟩) hi rfl, encode_r3Instr]⟩

/-- Settles O1: of each format the fields are read back from the canonical word, and a word that decodes gives the
canonical word of its own fields, which for the immediate format are the whole word. -/
theorem decodeAndEncodeAgree : Obligations.DecodeAndEncodeAgree := by
  refine ⟨fun i => decode_encode, fun w i hi => ⟨fun hw => ?r3, fun hw => ?imm⟩⟩
  case r3 =>
    obtain ⟨hr3, hcanonical⟩ := encode_of_decode_r3 hi hw
    have htag : bits w 28 4 < 16 := by omega
    rw [hcanonical]
    exact ⟨encodeR3_toNat htag .., (fields_encodeR3 htag ..).1, bits_low_nine_encodeR3 htag w⟩
  case imm =>
    obtain rfl := Except.ok.inj (hi.symm.trans (decode_of_tag_eq_thirteen hw))
    refine ⟨encode_orth_toNat_fields w, BitVec.eq_of_toNat_eq ?_⟩
    rw [encode_orth_toNat_fields, toNat_eq_imm_fields w, hw]

end Sys2Proof.Machine

/-! ## The range check of stage 1 (40_execution_engine.md R111) -/

namespace Sys2Proof.Machine

/-- At or beyond the end of array 0 nothing is fetched. -/
theorem fetch_eq_none_of_len_le_pc {s : State} (hpc : s.mem.len 0#32 ≤ s.pc.toNat) : s.fetch = none :=
  Memory.read_eq_none.mpr (.inr hpc)

/-- The step whose fetch finds no word fails before stage 2, so with `pc` as it was. -/
theorem step_of_fetch_none {s : State} (hs : s.status = .running) (hfetch : s.fetch = none) :
    step s = .next (s.fail .programCounterOverrun s.pc 0#32) := by
  simp only [step_running hs, hfetch]

/-- The frame of a fatal error (60_exceptions.md R230): no register, heap word, stream or parameter is written. -/
theorem fail_frame (s : State) (e : ErrorKind) (addr word : Word) :
    SameRegsBut [] s (s.fail e addr word) ∧ SameHeap s (s.fail e addr word) ∧
      SameStreams s (s.fail e addr word) ∧ SameParams s (s.fail e addr word) :=
  ⟨fun q _ => State.reg_fail s e addr word q, ⟨State.mem_fail s e addr word, fun _ _ => rfl⟩,
    ⟨State.inPos_fail s e addr word, State.out_fail s e addr word⟩,
    State.input_fail s e addr word, State.allocOracle_fail s e addr word⟩

/-- Settles O7: the address `(0, pc)` is not valid, so the fetch finds no word and the step fails in the state it
began in. -/
theorem runningOffTheEndFaults : Obligations.RunningOffTheEndFaults := by
  intro s hs hpc
  have hstep := step_of_fetch_none hs (fetch_eq_none_of_len_le_pc hpc)
  exact ⟨_, hstep, State.status_fail .., State.fault_fail .., State.pc_fail .., fail_frame ..⟩

end Sys2Proof.Machine

/-! ## ConditionalMove (41_conditional_move.md R130) -/

namespace Sys2Proof.Machine

/-- The frame of a state that nothing was written to. -/
theorem sameButRegs_refl (s : State) : SameButRegs s s :=
  ⟨⟨rfl, rfl, rfl⟩, ⟨rfl, fun _ _ => rfl⟩, ⟨rfl, rfl⟩, ⟨rfl, rfl⟩⟩

/-- ConditionalMove cannot fail: it writes the one register or leaves the state as it is. -/
theorem exec_cmov_completes (a b c : Sel) (s : State) :
    ∃ t, exec (.cmov a b c) s = .next t ∧
      ((s.reg c ≠ 0#32 ∧ t = s.setReg a (s.reg b)) ∨ (s.reg c = 0#32 ∧ t = s)) :=
  ⟨_, rfl, execCmov_next rfl⟩

/-- Settles O13: when the condition holds the next state is one register write, else it is the state itself. -/
theorem conditionalMoveEffect : Obligations.ConditionalMoveEffect := by
  refine ⟨decodesR3_r3Instr 0, fun a b c s => ?_⟩
  obtain ⟨t, hexec, ⟨hmove, rfl⟩ | ⟨hkeep, rfl⟩⟩ := exec_cmov_completes a b c s
  · have hmoved : (s.setReg a (s.reg b)).reg a = s.reg b := by simp
    exact ⟨_, hexec, fun _ => hmoved, fun hzero => absurd hzero hmove, sameRegsBut_setReg s a _,
      sameButRegs_setReg s a _⟩
  · exact ⟨_, hexec, fun hnonzero => absurd hkeep hnonzero, fun _ => rfl, fun _ _ => rfl,
      sameButRegs_refl _⟩

end Sys2Proof.Machine

/-! ## ArrayIndex and ArrayAmendment (42_array_access.md R135, R139) -/

namespace Sys2Proof.Machine

/-! ### The check of an address (20_memory.md R50, R57) -/

/-- An address is valid when its handle is live and its index is below the length (20_memory.md R50). -/
theorem not_badAddress_iff {s : State} {h i : Word} :
    ¬ BadAddress s h i ↔ s.mem.live h = true ∧ i.toNat < s.mem.len h := by
  simp [BadAddress]

theorem read_eq_none_iff_badAddress {s : State} {h i : Word} : s.mem.read h i = none ↔ BadAddress s h i :=
  Memory.read_eq_none

theorem write_eq_none_iff_badAddress {s : State} {h i v : Word} : s.mem.write h i v = none ↔ BadAddress s h i :=
  Memory.write_eq_none

theorem exists_read_of_not_badAddress {s : State} {h i : Word} (hgood : ¬ BadAddress s h i) :
    ∃ v, s.mem.read h i = some v :=
  Option.ne_none_iff_exists'.mp (mt read_eq_none_iff_badAddress.mp hgood)

theorem exists_write_of_not_badAddress {s : State} {h i : Word} (hgood : ¬ BadAddress s h i) (v : Word) :
    ∃ m, s.mem.write h i v = some m :=
  Option.ne_none_iff_exists'.mp (mt write_eq_none_iff_badAddress.mp hgood)

/-! ### ArrayIndex -/

theorem exec_aidx_of_read {a b c : Sel} {s : State} {v : Word}
    (hread : s.mem.read (s.reg b) (s.reg c) = some v) : exec (.aidx a b c) s = .next (s.setReg a v) := by
  simp only [exec, execAidx, hread]

theorem exec_aidx_of_badAddress {a b c : Sel} {s : State} (hbad : BadAddress s (s.reg b) (s.reg c)) :
    exec (.aidx a b c) s = .next (s.raise .outOfBoundsAccess) := by
  simp only [exec, execAidx, read_eq_none_iff_badAddress.mpr hbad]

/-- Settles O14: the read succeeds exactly when the address is valid; then the next state is one register write,
else it is the error raised. -/
theorem arrayIndexEffect : Obligations.ArrayIndexEffect := by
  refine ⟨decodesR3_r3Instr 1, fun a b c s => ⟨fun hlive hlt => ?_, fun hbad => ?_⟩⟩
  · obtain ⟨v, hread⟩ := exists_read_of_not_badAddress (not_badAddress_iff.mpr ⟨hlive, hlt⟩)
    have hloaded : (s.setReg a v).reg a = v := by simp
    exact ⟨_, v, exec_aidx_of_read hread, hread, hloaded, sameRegsBut_setReg s a v, sameButRegs_setReg s a v⟩
  · exact ⟨_, exec_aidx_of_badAddress hbad, raised_raise _ s⟩

/-! ### ArrayAmendment -/

theorem exec_amend_of_write {a b c : Sel} {s : State} {m : Memory}
    (hwrite : s.mem.write (s.reg a) (s.reg b) (s.reg c) = some m) :
    exec (.amend a b c) s = .next (s.setMem m) := by
  simp only [exec, execAmend, hwrite]

theorem exec_amend_of_badAddress {a b c : Sel} {s : State} (hbad : BadAddress s (s.reg a) (s.reg b)) :
    exec (.amend a b c) s = .next (s.raise .outOfBoundsAccess) := by
  simp only [exec, execAmend, write_eq_none_iff_badAddress.mpr hbad]

/-- The frame of a heap update: nothing outside the heap is written. -/
theorem setMem_frame (s : State) (m : Memory) :
    SameRegsBut [] s (s.setMem m) ∧ SameEngine s (s.setMem m) ∧ SameStreams s (s.setMem m) ∧
      SameParams s (s.setMem m) :=
  ⟨fun q _ => State.reg_setMem s m q, ⟨State.pc_setMem s m, State.status_setMem s m, State.fault_setMem s m⟩,
    ⟨State.inPos_setMem s m, State.out_setMem s m⟩, State.input_setMem s m, State.allocOracle_setMem s m⟩

/-- Settles O15: the write succeeds exactly when the address is valid; then the heap is the one `Memory.write_spec`
describes and nothing outside it is written, else the next state is the error raised. -/
theorem arrayAmendmentEffect : Obligations.ArrayAmendmentEffect := by
  refine ⟨decodesR3_r3Instr 2, fun a b c s => ⟨fun hlive hlt => ?_, fun hbad => ?_⟩⟩
  · obtain ⟨m, hwrite⟩ :=
      exists_write_of_not_badAddress (not_badAddress_iff.mpr ⟨hlive, hlt⟩) (s.reg c)
    obtain ⟨hstored, hothers, hshape, hslots, hfree⟩ := Memory.write_spec hwrite
    exact ⟨_, exec_amend_of_write hwrite, hstored, hothers, hshape, hslots, hfree, setMem_frame s m⟩
  · exact ⟨_, exec_amend_of_badAddress hbad, raised_raise _ s⟩

end Sys2Proof.Machine

/-! ## Addition, Multiplication, Division and NotAnd (43_arithmetic_logic.md R145, R148, R151, R155) -/

namespace Sys2Proof.Machine

/-! ### The register write that the four operations end in -/

theorem State.reg_setReg_same (s : State) (r : Sel) (v : Word) : (s.setReg r v).reg r = v := by simp

/-- An operation whose handler is the register write `x[a] <- v` completes with that effect and its frame. -/
theorem completes_of_exec_eq_setReg {i : Instr} {s : State} {a : Sel} {v : Word}
    (hexec : exec i s = .next (s.setReg a v)) :
    ∃ t, exec i s = .next t ∧ t.reg a = v ∧ SameRegsBut [a] s t ∧ SameButRegs s t :=
  ⟨_, hexec, State.reg_setReg_same s a v, sameRegsBut_setReg s a v, sameButRegs_setReg s a v⟩

/-! ### Addition and Multiplication -/

theorem toNat_addWords (u v : Word) : (addWords u v).toNat = (u.toNat + v.toNat) % 2 ^ 32 :=
  BitVec.toNat_ofNat ..

theorem toNat_mulWords (u v : Word) : (mulWords u v).toNat = (u.toNat * v.toNat) % 2 ^ 32 :=
  BitVec.toNat_ofNat ..

theorem exec_add (a b c : Sel) (s : State) :
    exec (.add a b c) s = .next (s.setReg a (addWords (s.reg b) (s.reg c))) := rfl

theorem exec_mul (a b c : Sel) (s : State) :
    exec (.mul a b c) s = .next (s.setReg a (mulWords (s.reg b) (s.reg c))) := rfl

/-- Settles O16: the handler is one register write, of the exact sum reduced modulo 2^32. -/
theorem additionEffect : Obligations.AdditionEffect := by
  refine ⟨decodesR3_r3Instr 3, fun a b c s => ?_⟩
  obtain ⟨t, hexec, hsum, hframe⟩ := completes_of_exec_eq_setReg (exec_add a b c s)
  exact ⟨t, hexec, hsum ▸ toNat_addWords _ _, hframe⟩

/-- Settles O17: the handler is one register write, of the exact product reduced modulo 2^32. -/
theorem multiplicationEffect : Obligations.MultiplicationEffect := by
  refine ⟨decodesR3_r3Instr 4, fun a b c s => ?_⟩
  obtain ⟨t, hexec, hproduct, hframe⟩ := completes_of_exec_eq_setReg (exec_mul a b c s)
  exact ⟨t, hexec, hproduct ▸ toNat_mulWords _ _, hframe⟩

/-! ### Division -/

/-- The quotient is at most the dividend, so it fits a word. -/
theorem toNat_divWords (u v : Word) : (divWords u v).toNat = u.toNat / v.toNat := by
  have hfits : u.toNat / v.toNat < 2 ^ 32 := (Nat.div_le_self ..).trans_lt u.isLt
  rw [divWords, BitVec.toNat_ofNat, Nat.mod_eq_of_lt hfits]

/-- The floor of a quotient, by its two inequalities. -/
theorem divWords_bounds (u : Word) {v : Word} (hv : v ≠ 0#32) :
    (divWords u v).toNat * v.toNat ≤ u.toNat ∧ u.toNat < ((divWords u v).toNat + 1) * v.toNat := by
  have hpos : 0 < v.toNat := Nat.pos_of_ne_zero (BitVec.toNat_ne.mp hv)
  rw [toNat_divWords]
  exact ⟨Nat.div_mul_le_self .., (Nat.div_lt_iff_lt_mul hpos).mp (Nat.lt_succ_self _)⟩

/-- Division writes the quotient or raises, as the divisor decides (R151). -/
theorem exec_div_completes (a b c : Sel) (s : State) :
    ∃ t, exec (.div a b c) s = .next t ∧
      ((s.reg c ≠ 0#32 ∧ t = s.setReg a (divWords (s.reg b) (s.reg c))) ∨
        (s.reg c = 0#32 ∧ t = s.raise .divisionByZero)) :=
  ⟨_, rfl, execDiv_next rfl⟩

/-- Settles O18: the divisor decides between one register write, of the quotient, and the error raised. -/
theorem divisionEffect : Obligations.DivisionEffect := by
  refine ⟨decodesR3_r3Instr 5, fun a b c s => ?_⟩
  obtain ⟨t, hexec, ⟨hc, rfl⟩ | ⟨hc, rfl⟩⟩ := exec_div_completes a b c s
  · obtain ⟨t, hexec, hquotient, hframe⟩ := completes_of_exec_eq_setReg hexec
    obtain ⟨hle, hlt⟩ := hquotient ▸ divWords_bounds (s.reg b) hc
    exact ⟨fun _ => ⟨t, hexec, hle, hlt, hframe⟩, fun hzero => absurd hzero hc⟩
  · exact ⟨fun hnonzero => absurd hc hnonzero, fun _ => ⟨_, hexec, raised_raise _ s⟩⟩

/-! ### NotAnd -/

/-- One bit of a word, by place value and as a truth value. -/
theorem bits_one (w : Word) (k : Nat) : bits w k 1 = (w.getLsbD k).toNat :=
  (Nat.toNat_testBit w.toNat k).symm

theorem getLsbD_nandWords (u v : Word) {k : Nat} (hk : k < 32) :
    (nandWords u v).getLsbD k = !(u.getLsbD k && v.getLsbD k) := by
  simp [nandWords, hk]

/-- Bit by bit: the result is 0 exactly where both sources are 1. -/
theorem bits_nandWords_eq_zero_iff (u v : Word) {k : Nat} (hk : k < 32) :
    bits (nandWords u v) k 1 = 0 ↔ bits u k 1 = 1 ∧ bits v k 1 = 1 := by
  simp [bits_one, getLsbD_nandWords u v hk]

theorem exec_nand (a b c : Sel) (s : State) :
    exec (.nand a b c) s = .next (s.setReg a (nandWords (s.reg b) (s.reg c))) := rfl

/-- Settles O19: the handler is one register write, of the complemented conjunction, read off bit by bit. -/
theorem notAndEffect : Obligations.NotAndEffect := by
  refine ⟨decodesR3_r3Instr 6, fun a b c s => ?_⟩
  obtain ⟨t, hexec, hnand, hframe⟩ := completes_of_exec_eq_setReg (exec_nand a b c s)
  exact ⟨t, hexec, fun k hk => hnand ▸ bits_nandWords_eq_zero_iff _ _ hk, hframe⟩

end Sys2Proof.Machine

/-! ## Orthography (48_orthography.md R210) -/

namespace Sys2Proof.Machine

theorem exec_orth (r : Sel) (imm : Word) (s : State) : exec (.orth r imm) s = .next (s.setReg r imm) := rfl

/-- Settles O26: the decoder reads the immediate by its place value, and the handler is one register write, of the
whole immediate. -/
theorem orthographyEffect : Obligations.OrthographyEffect := by
  refine ⟨fun w htag => ?decodes, fun r imm s => ?completes⟩
  case decodes => exact ⟨immField w, immField_toNat w, decode_of_tag_eq_thirteen htag⟩
  case completes => exact completes_of_exec_eq_setReg (exec_orth r imm s)

end Sys2Proof.Machine

/-! ## Reset (70_reset_and_hazards.md R260, R262) -/

namespace Sys2Proof.Machine

/-- Reading the array of a sequence behind the bounds check (20_memory.md R57) is looking the sequence up. -/
theorem WordArray.checked_get_ofWords (ws : List Word) (i : Nat) :
    (if i < (WordArray.ofWords ws).len then some ((WordArray.ofWords ws).get i) else none) = ws[i]? := by
  rw [WordArray.len_ofWords, WordArray.get_ofWords]
  split
  · next hin => rw [List.getElem?_eq_getElem hin, Option.getD_some]
  · next hout => exact (List.getElem?_eq_none (Nat.le_of_not_lt hout)).symm

section
variable (image : List Word) (input : List Byte) (oracle : AllocOracle)

/-- The array at handle 0 is the image. -/
theorem State.array?_boot :
    (State.boot image input oracle).mem.array? 0#32 = some (WordArray.ofWords image) := rfl

theorem State.live_boot : (State.boot image input oracle).mem.live 0#32 = true :=
  Memory.live_of_array? (State.array?_boot image input oracle)

theorem State.len_boot : (State.boot image input oracle).mem.len 0#32 = image.length :=
  Memory.len_of_array? (State.array?_boot image input oracle)

/-- Array 0 reads as the image, at the indices the image has and at no other. -/
theorem State.read_boot (i : Word) :
    (State.boot image input oracle).mem.read 0#32 i = image[i.toNat]? :=
  (Memory.read_of_array? (State.array?_boot image input oracle) i).trans
    (WordArray.checked_get_ofWords image i.toNat)

end

/-- Settles O43: array 0 is read through the one fact that reset puts the image there; every other component is
the value `State.boot` gives it. -/
theorem resetBuildsTheInitialState : Obligations.ResetBuildsTheInitialState := by
  rintro image input oracle _ rfl -
  exact ⟨State.reg_boot image input oracle, rfl, rfl, rfl, rfl, rfl, rfl, State.free_boot image input oracle,
    State.live_boot image input oracle, State.len_boot image input oracle, State.read_boot image input oracle,
    rfl, rfl⟩

end Sys2Proof.Machine

/-! ## What a handler can do, over all instructions (40_execution_engine.md R114; 60_exceptions.md R221)

A handler completes with one of a few effects on the state, or it raises; `exec_next` says so once, and the rules
over all instructions and over all steps are case analyses of it. -/

namespace Sys2Proof.Machine

/-! ### The two ways a handler ends -/

/-- What an instruction that completes makes of the state its handler is entered in. A register write is given by
its place alone; the value is in the statements about the single instructions. -/
inductive Completes (s : State) : Instr → State → Prop
  | keep {a b c : Sel} : s.reg c = 0#32 → Completes s (.cmov a b c) s
  | writeReg {i : Instr} {r : Sel} {v : Word} : r ∈ Instr.writes i → Completes s i (s.setReg r v)
  | halt {a b c : Sel} : Completes s (.halt a b c) s.halt
  | store {a b c : Sel} {m : Memory} : s.mem.write (s.reg a) (s.reg b) (s.reg c) = some m →
      Completes s (.amend a b c) (s.setMem m)
  | allocate {a b c : Sel} {g : Word} {m : Memory} :
      s.mem.heapAlloc (s.allocOK (s.reg c).toNat) (s.reg c) = some (g, m) →
      Completes s (.alloc a b c) ((s.setMem m).setReg b g)
  | abandon {a b c : Sel} : s.reg c ≠ 0#32 → s.mem.live (s.reg c) = true →
      Completes s (.aband a b c) (s.setMem (s.mem.heapFree (s.reg c)))
  | emit {a b c : Sel} : Completes s (.out a b c) (s.outputWrite (lowByte (s.reg c)))
  | consume {a b c : Sel} {byte : Byte} : s.input[s.inPos]? = some byte →
      Completes s (.inp a b c) (s.inputAdvance.setReg c (widenByte byte))
  | jump {a b c : Sel} : s.reg b = 0#32 → Completes s (.loadp a b c) (s.setPc (s.reg c))
  | load {a b c : Sel} {arr : WordArray} : s.reg b ≠ 0#32 → s.mem.array? (s.reg b) = some arr →
      Completes s (.loadp a b c) ((s.setMem (s.mem.setProgram arr)).setPc (s.reg c))

/-- When the handler of an instruction raises an error: the rows of the table of 60_exceptions.md R221 that speak
of an instruction, one constructor per instruction and error. -/
inductive Raises (s : State) : Instr → ErrorKind → Prop
  | aidx {a b c : Sel} : BadAddress s (s.reg b) (s.reg c) → Raises s (.aidx a b c) .outOfBoundsAccess
  | amend {a b c : Sel} : BadAddress s (s.reg a) (s.reg b) → Raises s (.amend a b c) .outOfBoundsAccess
  | div {a b c : Sel} : s.reg c = 0#32 → Raises s (.div a b c) .divisionByZero
  | alloc {a b c : Sel} :
      s.allocOK (s.reg c).toNat = false ∨ (s.mem.free = [] ∧ 2 ^ 32 ≤ s.mem.slots.length) →
      Raises s (.alloc a b c) .allocationFailure
  | aband {a b c : Sel} : s.reg c = 0#32 ∨ s.mem.live (s.reg c) = false →
      Raises s (.aband a b c) .outOfBoundsAccess
  | out {a b c : Sel} : 255 < (s.reg c).toNat → Raises s (.out a b c) .invalidOutputByte
  | loadpSource {a b c : Sel} : s.reg b ≠ 0#32 →
      s.mem.live (s.reg b) = false ∨ s.mem.len (s.reg b) = 0 → Raises s (.loadp a b c) .outOfBoundsAccess
  | loadpStorage {a b c : Sel} : s.reg b ≠ 0#32 → s.mem.live (s.reg b) = true → s.mem.len (s.reg b) ≠ 0 →
      s.allocOK (s.mem.len (s.reg b)) = false → Raises s (.loadp a b c) .allocationFailure

/-- Every handler completes, or raises under its condition, writing nothing before. -/
theorem exec_next {i : Instr} {s t : State} (h : exec i s = .next t) :
    Completes s i t ∨ ∃ e, Raises s i e ∧ t = s.raise e := by
  cases i with
  | cmov a b c =>
    obtain ⟨_, rfl⟩ | ⟨hzero, rfl⟩ := execCmov_next h
    · exact .inl (.writeReg (.head _))
    · exact .inl (.keep hzero)
  | aidx a b c =>
    obtain ⟨_, _, rfl⟩ | ⟨hnone, rfl⟩ := execAidx_next h
    · exact .inl (.writeReg (.head _))
    · exact .inr ⟨_, .aidx (read_eq_none_iff_badAddress.mp hnone), rfl⟩
  | amend a b c =>
    obtain ⟨_, hwrite, rfl⟩ | ⟨hnone, rfl⟩ := execAmend_next h
    · exact .inl (.store hwrite)
    · exact .inr ⟨_, .amend (write_eq_none_iff_badAddress.mp hnone), rfl⟩
  | add a b c =>
    cases h
    exact .inl (.writeReg (.head _))
  | mul a b c =>
    cases h
    exact .inl (.writeReg (.head _))
  | div a b c =>
    obtain ⟨_, rfl⟩ | ⟨hzero, rfl⟩ := execDiv_next h
    · exact .inl (.writeReg (.head _))
    · exact .inr ⟨_, .div hzero, rfl⟩
  | nand a b c =>
    cases h
    exact .inl (.writeReg (.head _))
  | halt a b c =>
    cases h
    exact .inl .halt
  | alloc a b c =>
    obtain ⟨_, _, halloc, rfl⟩ | ⟨hnone, rfl⟩ := execAlloc_next h
    · exact .inl (.allocate halloc)
    · exact .inr ⟨_, .alloc (Memory.heapAlloc_eq_none.mp hnone), rfl⟩
  | aband a b c =>
    obtain ⟨hne, hlive, rfl⟩ | ⟨hbad, rfl⟩ := execAband_next h
    · exact .inl (.abandon hne hlive)
    · exact .inr ⟨_, .aband hbad, rfl⟩
  | out a b c =>
    obtain ⟨_, rfl⟩ | ⟨hlarge, rfl⟩ := execOut_next h
    · exact .inl .emit
    · exact .inr ⟨_, .out hlarge, rfl⟩
  | inp a b c =>
    obtain ⟨_, hbyte, rfl⟩ | ⟨_, rfl⟩ := execInp_next h
    · exact .inl (.consume hbyte)
    · exact .inl (.writeReg (.head _))
  | loadp a b c =>
    obtain ⟨hzero, rfl⟩ | ⟨hne, _, harr, _, _, rfl⟩ | ⟨hne, hbad, rfl⟩ | ⟨hne, arr, harr, hlen, hdeny, rfl⟩ :=
      execLoadp_next h
    · exact .inl (.jump hzero)
    · exact .inl (.load hne harr)
    · exact .inr ⟨_, .loadpSource hne hbad, rfl⟩
    · rw [← Memory.len_of_array? harr] at hlen hdeny
      exact .inr ⟨_, .loadpStorage hne (Memory.live_of_array? harr) hlen hdeny, rfl⟩
  | orth r imm =>
    cases h
    exact .inl (.writeReg (.head _))

/-- Every handler answers a next state. -/
theorem exec_total (i : Instr) (s : State) : ∃ t, exec i s = .next t := by
  cases i <;> exact ⟨_, rfl⟩

/-! ### Errors, exactly -/

/-- An instruction that completes is Running or Halted when it was Running. -/
theorem Completes.status {i : Instr} {s t : State} (h : Completes s i t) :
    t.status = s.status ∨ t.status = .halted ∧ ∃ a b c, i = .halt a b c := by
  cases h with
  | halt => exact .inr ⟨rfl, _, _, _, rfl⟩
  | _ => exact .inl rfl

/-- A handler that faults a Running engine has raised, and under its condition. -/
theorem exec_faulted {i : Instr} {s t : State} {e : ErrorKind} (hs : s.status = .running)
    (h : exec i s = .next t) (ht : t.status = .faulted e) : Raises s i e ∧ t = s.raise e := by
  obtain hdone | ⟨e', hraises, rfl⟩ := exec_next h
  · obtain hsame | ⟨hhalted, _⟩ := hdone.status
    · simp [hsame, hs] at ht
    · simp [hhalted] at ht
  · obtain rfl : e' = e := by simpa using ht
    exact ⟨hraises, rfl⟩

/-- A handler that leaves the engine Running has completed. -/
theorem exec_running {i : Instr} {s t : State} (h : exec i s = .next t) (ht : t.status = .running) :
    Completes s i t := by
  obtain hdone | ⟨_, _, rfl⟩ := exec_next h
  · exact hdone
  · simp at ht

theorem exec_div_of_zero {a b c : Sel} {s : State} (hzero : s.reg c = 0#32) :
    exec (.div a b c) s = .next (s.raise .divisionByZero) := by
  simp [exec, execDiv, nonZero, hzero]

theorem exec_alloc_of_heapAlloc_none {a b c : Sel} {s : State}
    (hnone : s.mem.heapAlloc (s.allocOK (s.reg c).toNat) (s.reg c) = none) :
    exec (.alloc a b c) s = .next (s.raise .allocationFailure) := by
  simp only [exec, execAlloc, hnone]

theorem exec_aband_of_bad {a b c : Sel} {s : State} (hbad : s.reg c = 0#32 ∨ s.mem.live (s.reg c) = false) :
    exec (.aband a b c) s = .next (s.raise .outOfBoundsAccess) := by
  rw [exec, execAband, if_neg]
  rintro ⟨hne, hlive⟩
  exact hbad.elim hne fun hdead => Bool.noConfusion (hlive.symm.trans hdead)

theorem exec_out_of_large {a b c : Sel} {s : State} (hlarge : 255 < (s.reg c).toNat) :
    exec (.out a b c) s = .next (s.raise .invalidOutputByte) := by
  have hbyte : ¬ (s.reg c).toNat ≤ 255 := by omega
  simp [exec, execOut, isByte, hbyte]

theorem exec_loadp_of_badSource {a b c : Sel} {s : State} (hne : s.reg b ≠ 0#32)
    (hbad : s.mem.live (s.reg b) = false ∨ s.mem.len (s.reg b) = 0) :
    exec (.loadp a b c) s = .next (s.raise .outOfBoundsAccess) := by
  cases harr : s.mem.array? (s.reg b) with
  | none => simp [exec, execLoadp, nonZero, hne, harr]
  | some arr =>
    have hlen : arr.len = 0 := by simpa [Memory.live, Memory.len, harr] using hbad
    simp [exec, execLoadp, nonZero, hne, harr, hlen]

/-- LoadProgram on a source that can be copied asks for storage, and the answer decides (47_load_program.md R200). -/
theorem exec_loadp_of_goodSource {a b c : Sel} {s : State} {arr : WordArray} (hne : s.reg b ≠ 0#32)
    (harr : s.mem.array? (s.reg b) = some arr) (hlen : arr.len ≠ 0) :
    exec (.loadp a b c) s = .next (if s.allocOK arr.len = true then
      (s.setMem (s.mem.setProgram arr)).setPc (s.reg c) else s.raise .allocationFailure) := by
  simp [exec, execLoadp, nonZero, hne, harr, hlen]

theorem exec_loadp_of_denied {a b c : Sel} {s : State} (hne : s.reg b ≠ 0#32)
    (hlive : s.mem.live (s.reg b) = true) (hlen : s.mem.len (s.reg b) ≠ 0)
    (hdeny : s.allocOK (s.mem.len (s.reg b)) = false) :
    exec (.loadp a b c) s = .next (s.raise .allocationFailure) := by
  obtain ⟨arr, harr⟩ := Memory.array?_of_live hlive
  rw [Memory.len_of_array? harr] at hlen hdeny
  simp [exec_loadp_of_goodSource hne harr hlen, hdeny]

/-- Under its condition the error is raised, and nothing else happens. -/
theorem exec_of_raises {i : Instr} {s : State} {e : ErrorKind} (h : Raises s i e) :
    exec i s = .next (s.raise e) := by
  cases h with
  | aidx hbad => exact exec_aidx_of_badAddress hbad
  | amend hbad => exact exec_amend_of_badAddress hbad
  | div hzero => exact exec_div_of_zero hzero
  | alloc hfail => exact exec_alloc_of_heapAlloc_none (Memory.heapAlloc_eq_none.mpr hfail)
  | aband hbad => exact exec_aband_of_bad hbad
  | out hlarge => exact exec_out_of_large hlarge
  | loadpSource hne hbad => exact exec_loadp_of_badSource hne hbad
  | loadpStorage hne hlive hlen hdeny => exact exec_loadp_of_denied hne hlive hlen hdeny

/-! ### The step, by its outcome -/

/-- A handler's fault record is the fetch address and the fetched word (40_execution_engine.md R116; log 5). -/
theorem raise_advance {s : State} {w : Word} (hfetch : s.fetch = some w) (e : ErrorKind) :
    s.advance.raise e = s.advance.fail e s.pc w := by
  have hread : s.mem.read 0#32 s.pc = some w := hfetch
  simp [State.raise, hread]

/-- The step that fetches a decodable word is the handler, with `pc` incremented (R112, R114). -/
theorem step_of_decode_ok {s : State} {w : Word} {i : Instr} (hs : s.status = .running)
    (hfetch : s.fetch = some w) (hi : decode w = .ok i) : step s = exec i s.advance := by
  simp only [step_running hs, hfetch, hi]

/-- Everything a step does, by outcome: off the end of the program; an error after the fetch, of the decoder or of
the handler; or a completed instruction. -/
theorem step_outcome {s t : State} (h : step s = .next t) :
    s.status = .running ∧
      ((s.fetch = none ∧ t = s.fail .programCounterOverrun s.pc 0#32) ∨
        (∃ w e, s.fetch = some w ∧ e ≠ .programCounterOverrun ∧ t = s.advance.fail e s.pc w) ∨
        ∃ w i, s.fetch = some w ∧ decode w = .ok i ∧ Completes s.advance i t) := by
  obtain ⟨hs, hnone | ⟨w, e, hfetch, _, rfl⟩ | ⟨w, i, hfetch, hi, hexec⟩⟩ := step_eq_next h
  · exact ⟨hs, .inl hnone⟩
  · exact ⟨hs, .inr (.inl ⟨w, .invalidOpcode, hfetch, nofun, rfl⟩)⟩
  · obtain hdone | ⟨e, hraises, rfl⟩ := exec_next hexec
    · exact ⟨hs, .inr (.inr ⟨w, i, hfetch, hi, hdone⟩)⟩
    · have hkind : e ≠ .programCounterOverrun := by cases hraises <;> nofun
      exact ⟨hs, .inr (.inl ⟨w, e, hfetch, hkind, raise_advance hfetch e⟩)⟩

end Sys2Proof.Machine

/-! ## The invariant (10_state.md R27, R33; 60_exceptions.md R232) -/

namespace Sys2Proof.Machine

/-! ### The heap invariants, by heap operation -/

/-- The slots after `HeapAlloc`: zeros at the returned handle (45_heap_management.md R166). -/
theorem Memory.array?_heapAlloc {m n : Memory} {ok : Bool} {k h : Word} (e : m.heapAlloc ok k = some (h, n))
    (hin : h ∈ m.free → h.toNat < m.slots.length) (g : Word) :
    n.array? g = if g = h then some (WordArray.zeros k.toNat) else m.array? g := by
  obtain ⟨_, ⟨rest, hfree, rfl⟩ | ⟨_, hlimit, rfl, rfl⟩⟩ := Memory.heapAlloc_eq_some.mp e
  · have hlt : h.toNat < m.slots.length := hin (by simp [hfree])
    rw [Memory.array?_set]
    simp [hlt, BitVec.toNat_inj]
  · have hhandle : (BitVec.ofNat 32 m.slots.length).toNat = m.slots.length := by
      rw [BitVec.toNat_ofNat, Nat.mod_eq_of_lt hlimit]
    rw [Memory.array?_append]
    simp [← BitVec.toNat_inj, hhandle]

/-- The heap invariants speak of the topology alone: slots, free stack and liveness. -/
theorem Memory.consistent_of_same_topology {m n : Memory} (hm : m.consistent)
    (hslots : n.slots.length = m.slots.length) (hfree : n.free = m.free) (hlive : ∀ h, n.live h = m.live h) :
    n.consistent := by
  simpa only [Memory.consistent, hslots, hfree, hlive] using hm

theorem Memory.consistent_write {m n : Memory} (hm : m.consistent) {h i v : Word}
    (e : m.write h i v = some n) : n.consistent := by
  obtain ⟨-, -, hshape, hslots, hfree⟩ := Memory.write_spec e
  exact Memory.consistent_of_same_topology hm hslots hfree fun g => (hshape g).1

/-- Handle 0 stays live when the program is replaced (47_load_program.md R200). -/
theorem Memory.live_setProgram {m : Memory} (h0 : m.live 0#32 = true) (a : WordArray) (g : Word) :
    (m.setProgram a).live g = m.live g := by
  obtain ⟨b, hb⟩ := Memory.array?_of_live h0
  have hpos : 0 < m.slots.length := Nat.zero_lt_of_lt (Memory.lt_of_array? hb)
  by_cases hg : g = 0#32
  · rw [hg, h0]
    exact Memory.live_of_array? ((Memory.array?_setProgram hpos a 0#32).trans (if_pos rfl))
  · exact (Memory.same_of_array? ((Memory.array?_setProgram hpos a g).trans (if_neg hg))).1

theorem Memory.consistent_setProgram {m : Memory} (hm : m.consistent) (a : WordArray) :
    (m.setProgram a).consistent := by
  obtain ⟨-, -, ⟨h0, -⟩, -⟩ := id hm
  exact Memory.consistent_of_same_topology hm (by simp) rfl (Memory.live_setProgram h0 a)

/-- Liveness after `HeapFree`. -/
theorem Memory.live_heapFree {m : Memory} {h : Word} (hl : m.live h = true) (g : Word) :
    (m.heapFree h).live g = true ↔ g ≠ h ∧ m.live g = true := by
  by_cases hg : g = h <;> simp [Memory.live, Memory.array?_heapFree hl, hg]

/-- Abandoning a live handle other than 0 moves it from the live handles to the free ones. -/
theorem Memory.consistent_heapFree {m : Memory} (hm : m.consistent) {h : Word} (h0 : h ≠ 0#32)
    (hl : m.live h = true) : (m.heapFree h).consistent := by
  obtain ⟨hsplit, ⟨hrange, hnodup⟩, ⟨hzero, hzfree⟩, hlimit⟩ := hm
  obtain ⟨a, ha⟩ := Memory.array?_of_live hl
  have hlt : h.toNat < m.slots.length := Memory.lt_of_array? ha
  have hnot : h ∉ m.free := (hsplit h hlt).mp hl
  refine ⟨fun g hg => ?split, ⟨?range, ?nodup⟩, ⟨?zeroLive, ?zeroNotFree⟩, by simpa using hlimit⟩
  case split =>
    rw [Memory.live_heapFree hl, hsplit g (by simpa using hg)]
    simp
  case range => simpa [hlt] using hrange
  case nodup => simpa [hnot] using hnodup
  case zeroLive => exact (Memory.live_heapFree hl _).mpr ⟨h0.symm, hzero⟩
  case zeroNotFree => simpa [hzfree] using h0.symm

/-- Liveness after `HeapAlloc`. -/
theorem Memory.live_heapAlloc {m n : Memory} {ok : Bool} {k h : Word} (e : m.heapAlloc ok k = some (h, n))
    (hin : h ∈ m.free → h.toNat < m.slots.length) (g : Word) :
    n.live g = true ↔ g = h ∨ m.live g = true := by
  by_cases hg : g = h <;> simp [Memory.live, Memory.array?_heapAlloc e hin, hg]

/-- A handle that `HeapAlloc` returns was not live (45_heap_management.md R167). -/
theorem Memory.not_live_of_heapAlloc {m n : Memory} (hm : m.consistent) {ok : Bool} {k h : Word}
    (e : m.heapAlloc ok k = some (h, n)) : m.live h = false := by
  obtain ⟨hsplit, ⟨hrange, -⟩, -, -⟩ := hm
  rw [← Bool.not_eq_true]
  intro hlive
  obtain ⟨_, ⟨rest, hfree, -⟩ | ⟨-, hlimit, rfl, -⟩⟩ := Memory.heapAlloc_eq_some.mp e
  · have hmem : h ∈ m.free := by simp [hfree]
    exact (hsplit h (hrange h hmem)).mp hlive hmem
  · obtain ⟨a, ha⟩ := Memory.array?_of_live hlive
    have hlt := Memory.lt_of_array? ha
    rw [BitVec.toNat_ofNat, Nat.mod_eq_of_lt hlimit] at hlt
    exact Nat.lt_irrefl _ hlt

/-- Allocation moves the returned handle to the live ones, from the free ones or from beyond the slots. -/
theorem Memory.consistent_heapAlloc {m n : Memory} (hm : m.consistent) {ok : Bool} {k h : Word}
    (e : m.heapAlloc ok k = some (h, n)) : n.consistent := by
  obtain ⟨hsplit, ⟨hrange, hnodup⟩, ⟨hzero, hzfree⟩, hlimit⟩ := hm
  have hlive := Memory.live_heapAlloc e (hrange h)
  have hzeroLive : n.live 0#32 = true := (hlive 0#32).mpr (.inr hzero)
  obtain ⟨_, ⟨rest, hfree, rfl⟩ | ⟨hfree, hgrow, rfl, rfl⟩⟩ := Memory.heapAlloc_eq_some.mp e
  case inl =>
    simp only [hfree, List.mem_cons, List.nodup_cons, forall_eq_or_imp, not_or] at hsplit hrange hnodup hzfree
    refine ⟨fun g hg => ?_, ⟨by simpa using hrange.2, hnodup.2⟩, ⟨hzeroLive, hzfree.2⟩, by simpa using hlimit⟩
    rw [hlive, hsplit g (by simpa using hg)]
    by_cases hgh : g = h <;> simp [hgh, hnodup.1]
  case inr =>
    refine ⟨fun g hg => ?_, ⟨by simp, .nil⟩, ⟨hzeroLive, by simp⟩, by simpa using hgrow⟩
    have hg' : g.toNat = m.slots.length ∨ g.toNat < m.slots.length := by
      simp only [List.length_append, List.length_singleton] at hg
      omega
    rw [hlive]
    obtain heq | hlt := hg'
    · simp [← heq]
    · simp [hsplit g hlt, hfree]

/-! ### The invariant on a Running or Halted state, and on a failed one -/

/-- No fault record on an engine that no error has stopped. -/
theorem State.engineConsistent_of_no_fault {s : State} (hstatus : s.status = .running ∨ s.status = .halted)
    (hfault : s.fault = none) : s.engineConsistent := by
  obtain hs | hs := hstatus
  · simpa only [State.engineConsistent, hs] using hfault
  · simpa only [State.engineConsistent, hs] using hfault

theorem State.fault_of_running {s : State} (hs : s.status = .running) (h : s.engineConsistent) :
    s.fault = none := by
  simpa only [State.engineConsistent, hs] using h

/-- A completed instruction adds no fault record. -/
theorem Completes.fault {i : Instr} {s t : State} (h : Completes s i t) : t.fault = s.fault := by
  cases h <;> rfl

theorem Completes.wf {i : Instr} {s t : State} (h : Completes s i t) (hm : s.mem.wf) : t.mem.wf := by
  cases h with
  | store hwrite => exact Memory.wf_write hm hwrite
  | allocate halloc => exact Memory.wf_heapAlloc hm halloc
  | abandon => exact Memory.wf_heapFree hm _
  | load _ harr => exact Memory.wf_setProgram hm (Memory.wf_of_array? hm harr)
  | _ => exact hm

theorem Completes.consistent {i : Instr} {s t : State} (h : Completes s i t) (hm : s.mem.consistent) :
    t.mem.consistent := by
  cases h with
  | store hwrite => exact Memory.consistent_write hm hwrite
  | allocate halloc => exact Memory.consistent_heapAlloc hm halloc
  | abandon hne hlive => exact Memory.consistent_heapFree hm hne hlive
  | load => exact Memory.consistent_setProgram hm _
  | _ => exact hm

/-- Input is consumed only where there is some (10_state.md R34). -/
theorem Completes.inPos_le {i : Instr} {s t : State} (h : Completes s i t)
    (hin : s.inPos ≤ s.input.length) : t.inPos ≤ t.input.length := by
  cases h with
  | consume hbyte => exact (List.getElem?_eq_some_iff.mp hbyte).1
  | _ => exact hin

theorem Completes.inv {i : Instr} {s t : State} (h : Completes s i t) (hs : s.status = .running)
    (hinv : s.Inv) : t.Inv := by
  obtain ⟨hwf, hcons, hengine, hin⟩ := hinv
  have hstatus : t.status = .running ∨ t.status = .halted := h.status.imp (·.trans hs) And.left
  exact ⟨h.wf hwf, h.consistent hcons,
    State.engineConsistent_of_no_fault hstatus (h.fault.trans (State.fault_of_running hs hengine)), h.inPos_le hin⟩

/-- The state after ProgramCounterOverrun: `pc` is the record's address, beyond array 0 (R111). -/
theorem State.inv_overrun {s : State} (hinv : s.Inv) (hfetch : s.fetch = none) :
    (s.fail .programCounterOverrun s.pc 0#32).Inv := by
  obtain ⟨hwf, hcons, -, hin⟩ := hinv
  have hpc : s.mem.len 0#32 ≤ s.pc.toNat :=
    (Memory.read_eq_none.mp hfetch).elim (fun hdead => by simp [Memory.len_of_not_live hdead]) id
  exact ⟨hwf, hcons, ⟨_, rfl, rfl, fun _ => ⟨rfl, rfl, hpc⟩, fun hne => absurd rfl hne⟩, hin⟩

/-- The state after an error that follows the fetch: `pc` is one past the record's address, where array 0 still
holds the record's word. -/
theorem State.inv_fail_after_fetch {s : State} {w : Word} {e : ErrorKind} (hinv : s.Inv)
    (hfetch : s.fetch = some w) (hkind : e ≠ .programCounterOverrun) : (s.advance.fail e s.pc w).Inv := by
  obtain ⟨hwf, hcons, -, hin⟩ := hinv
  exact ⟨hwf, hcons, ⟨_, rfl, rfl, fun heq => absurd heq hkind, fun _ => ⟨rfl, hfetch⟩⟩, hin⟩

/-- The invariant does not speak of `pc` while Running. -/
theorem State.inv_advance {s : State} (hs : s.status = .running) (hinv : s.Inv) : s.advance.Inv := by
  obtain ⟨hwf, hcons, hengine, hin⟩ := hinv
  exact ⟨hwf, hcons, State.engineConsistent_of_no_fault (.inl hs) (State.fault_of_running (s := s) hs hengine),
    hin⟩

/-- Settles O46: each of the three outcomes of a step meets the invariant, the completed instruction by the heap
invariants of each heap operation. -/
theorem everyStepKeepsTheInvariant : Obligations.EveryStepKeepsTheInvariant := by
  intro s t hinv hstep
  obtain ⟨hs, ⟨hfetch, rfl⟩ | ⟨w, e, hfetch, hkind, rfl⟩ | ⟨w, i, hfetch, hi, hdone⟩⟩ := step_outcome hstep
  · exact State.inv_overrun hinv hfetch
  · exact State.inv_fail_after_fetch hinv hfetch hkind
  · exact hdone.inv hs (State.inv_advance hs hinv)

end Sys2Proof.Machine

/-! ## Runs from reset, and runs without a fatal error (10_state.md R33; 40_execution_engine.md R115, R117) -/

namespace Sys2Proof.Machine

/-! ### The invariant along a run -/

/-- The heap at reset: handle 0 alone, live and not free. -/
theorem Memory.consistent_boot (image : List Word) (input : List Byte) (oracle : AllocOracle) :
    (State.boot image input oracle).mem.consistent := by
  refine ⟨fun h hlt => ?_, ⟨nofun, .nil⟩, ⟨State.live_boot image input oracle, nofun⟩, by simp [State.boot]⟩
  have hzero : h = 0#32 := BitVec.toNat_inj.mp (Nat.lt_one_iff.mp hlt)
  simp [hzero, State.live_boot]

theorem State.inv_boot {image : List Word} (himage : image.length < 2 ^ 32) (input : List Byte)
    (oracle : AllocOracle) : (State.boot image input oracle).Inv :=
  ⟨Memory.wf_boot himage input oracle, Memory.consistent_boot image input oracle,
    State.engineConsistent_of_no_fault (.inl rfl) rfl, Nat.zero_le _⟩

/-- Settles O47: reset builds a heap with the one live handle 0, and State.reset is reset with the empty image. -/
theorem invariantHoldsAtReset : Obligations.InvariantHoldsAtReset :=
  ⟨fun _ input oracle himage => State.inv_boot himage input oracle,
    State.reset_eq_boot ▸ State.inv_boot (image := []) (by decide) _ _⟩

/-- A run keeps the invariant. -/
theorem State.inv_run {k : Nat} {s t : State} (hinv : s.Inv)
    (hrun : Host.Core.run Sys2Proof.core k s = .next t) : t.Inv :=
  run_keeps everyStepKeepsTheInvariant hinv hrun

/-- Settles O48: the invariant holds at reset and every step keeps it. -/
theorem everyRunKeepsTheInvariant : Obligations.EveryRunKeepsTheInvariant :=
  fun _ input oracle _ _ himage hrun => State.inv_run (State.inv_boot himage input oracle) hrun

/-! ### Where a step exists -/

/-- Settles O8: the first step of the run would be a step of a stopped engine. -/
theorem stoppedEngineTakesNoStep : Obligations.StoppedEngineTakesNoStep := by
  intro s hs k t hrun
  obtain ⟨u, hstep, -⟩ := run_succ_eq_next.mp hrun
  obtain ⟨f, hfault⟩ := step_stopped hs
  exact nomatch hstep.symm.trans hfault

/-- Settles O9: without a word to fetch, or one that decodes, the step is an error's; with one it is a handler's,
and every handler answers a next state. -/
theorem runningEngineAlwaysSteps : Obligations.RunningEngineAlwaysSteps := by
  intro s hs
  cases hfetch : s.fetch with
  | none => exact ⟨_, step_of_fetch_none hs hfetch⟩
  | some w =>
    cases hdecode : decode w with
    | error e => exact ⟨_, step_of_decode_error hs hfetch hdecode⟩
    | ok i =>
      rw [step_of_decode_ok hs hfetch hdecode]
      exact exec_total i s.advance

/-! ### Each error exactly under its condition (60_exceptions.md R221) -/

/-- The fetch finds no word exactly at or beyond the end of array 0. -/
theorem fetch_eq_none_iff {s : State} : s.fetch = none ↔ s.mem.len 0#32 ≤ s.pc.toNat := by
  refine ⟨fun hnone => ?_, fetch_eq_none_of_len_le_pc⟩
  obtain hdead | hend := Memory.read_eq_none.mp hnone
  · simp [Memory.len_of_not_live hdead]
  · exact hend

/-- The table's rows that speak of an instruction, as the condition of its handler, which is entered with `pc`
incremented. -/
theorem errorCause_iff_raises {s : State} {e : ErrorKind} (hslots : s.mem.slots.length ≤ 2 ^ 32)
    (hdecoder : e ≠ .invalidOpcode) (hfetch : e ≠ .programCounterOverrun) :
    ErrorCause s e ↔ ∃ i, Runs s i ∧ Raises s.advance i e := by
  constructor
  · intro hcause
    cases e with
    | invalidOpcode => exact absurd rfl hdecoder
    | programCounterOverrun => exact absurd rfl hfetch
    | outOfBoundsAccess =>
      obtain ⟨a, b, c, hruns, hbad⟩ | ⟨a, b, c, hruns, hbad⟩ | ⟨a, b, c, hruns, hbad⟩ |
        ⟨a, b, c, hruns, hne, hbad⟩ := hcause
      · exact ⟨_, hruns, .aidx hbad⟩
      · exact ⟨_, hruns, .amend hbad⟩
      · exact ⟨_, hruns, .aband hbad⟩
      · exact ⟨_, hruns, .loadpSource hne hbad⟩
    | divisionByZero =>
      obtain ⟨a, b, c, hruns, hzero⟩ := hcause
      exact ⟨_, hruns, .div hzero⟩
    | invalidOutputByte =>
      obtain ⟨a, b, c, hruns, hlarge⟩ := hcause
      exact ⟨_, hruns, .out hlarge⟩
    | allocationFailure =>
      obtain ⟨a, b, c, hruns, hfail⟩ | ⟨a, b, c, hruns, hne, hlive, hlen, hdeny⟩ := hcause
      · exact ⟨_, hruns, .alloc (hfail.imp_right fun ⟨hfree, hfull⟩ => ⟨hfree, hfull.ge⟩)⟩
      · exact ⟨_, hruns, .loadpStorage hne hlive hlen hdeny⟩
  · rintro ⟨i, hruns, hraises⟩
    cases hraises with
    | aidx hbad => exact .inl ⟨_, _, _, hruns, hbad⟩
    | amend hbad => exact .inr (.inl ⟨_, _, _, hruns, hbad⟩)
    | aband hbad => exact .inr (.inr (.inl ⟨_, _, _, hruns, hbad⟩))
    | loadpSource hne hbad => exact .inr (.inr (.inr ⟨_, _, _, hruns, hne, hbad⟩))
    | div hzero => exact ⟨_, _, _, hruns, hzero⟩
    | out hlarge => exact ⟨_, _, _, hruns, hlarge⟩
    | alloc hfail =>
      exact .inl ⟨_, _, _, hruns, hfail.imp_right fun ⟨hfree, hfull⟩ => ⟨hfree, hslots.antisymm hfull⟩⟩
    | loadpStorage hne hlive hlen hdeny => exact .inr ⟨_, _, _, hruns, hne, hlive, hlen, hdeny⟩

/-- The table's first row is the decoder's error (30_encoding.md R87). -/
theorem errorCause_invalidOpcode_iff {s : State} :
    ErrorCause s .invalidOpcode ↔ ∃ w e, s.fetch = some w ∧ decode w = .error e := by
  simp only [ErrorCause, State.fetch, ← decode_eq_error_iff, exists_and_left]

/-- Under the condition of an error the step raises it. -/
theorem step_of_errorCause {s : State} {e : ErrorKind} (hs : s.status = .running)
    (hslots : s.mem.slots.length ≤ 2 ^ 32) (hcause : ErrorCause s e) :
    ∃ t, step s = .next t ∧ t.status = .faulted e := by
  by_cases hoverrun : e = .programCounterOverrun
  · subst hoverrun
    exact ⟨_, step_of_fetch_none hs (fetch_eq_none_iff.mpr hcause), rfl⟩
  by_cases hinvalid : e = .invalidOpcode
  · subst hinvalid
    obtain ⟨w, e, hfetch, hdecode⟩ := errorCause_invalidOpcode_iff.mp hcause
    exact ⟨_, step_of_decode_error hs hfetch hdecode, rfl⟩
  obtain ⟨i, ⟨w, hread, hi⟩, hraises⟩ := (errorCause_iff_raises hslots hinvalid hoverrun).mp hcause
  exact ⟨_, (step_of_decode_ok hs hread hi).trans (exec_of_raises hraises), rfl⟩

/-- A step raises no error but under the error's condition. -/
theorem errorCause_of_step {s t : State} {e : ErrorKind} (hslots : s.mem.slots.length ≤ 2 ^ 32)
    (hstep : step s = .next t) (ht : t.status = .faulted e) : ErrorCause s e := by
  obtain ⟨hs, ⟨hfetch, rfl⟩ | ⟨w, e', hfetch, hdecode, rfl⟩ | ⟨w, i, hfetch, hi, hexec⟩⟩ := step_eq_next hstep
  · obtain rfl : ErrorKind.programCounterOverrun = e := by simpa using ht
    exact fetch_eq_none_iff.mp hfetch
  · obtain rfl : ErrorKind.invalidOpcode = e := by simpa using ht
    exact errorCause_invalidOpcode_iff.mpr ⟨w, e', hfetch, hdecode⟩
  · obtain ⟨hraises, -⟩ := exec_faulted (s := s.advance) hs hexec ht
    have hdecoder : e ≠ .invalidOpcode := by cases hraises <;> nofun
    have hrange : e ≠ .programCounterOverrun := by cases hraises <;> nofun
    exact (errorCause_iff_raises hslots hdecoder hrange).mpr ⟨i, ⟨w, hfetch, hi⟩, hraises⟩

/-- Settles O12: the condition decides the step, and the step's error shows the condition. -/
theorem errorsAreRaisedExactlyWhenTheTableSays : Obligations.ErrorsAreRaisedExactlyWhenTheTableSays := by
  intro s t e hslots hstep
  refine ⟨errorCause_of_step hslots hstep, fun hcause => ?_⟩
  obtain ⟨hs, -⟩ := step_eq_next hstep
  obtain ⟨u, hu, hfaulted⟩ := step_of_errorCause hs hslots hcause
  exact Host.Outcome.next.inj (hstep.symm.trans hu) ▸ hfaulted

/-! ### Safe runs -/

/-- A run of `k + 1` steps is a run of `k` steps and then a step. -/
theorem run_succ_eq_next_last {k : Nat} {s t : State} :
    Host.Core.run Sys2Proof.core (k + 1) s = .next t ↔
      ∃ u, Host.Core.run Sys2Proof.core k s = .next u ∧ step u = .next t := by
  induction k generalizing s with
  | zero =>
    constructor
    · intro hrun
      obtain ⟨u, hstep, hdone⟩ := run_succ_eq_next.mp hrun
      exact ⟨s, rfl, hstep.trans hdone⟩
    · rintro ⟨u, hdone, hstep⟩
      obtain rfl : s = u := Host.Outcome.next.inj hdone
      exact run_succ_eq_next.mpr ⟨t, hstep, rfl⟩
  | succ k ih =>
    constructor
    · intro hrun
      obtain ⟨u, hfirst, hrest⟩ := run_succ_eq_next.mp hrun
      obtain ⟨v, hmiddle, hlast⟩ := ih.mp hrest
      exact ⟨v, run_succ_eq_next.mpr ⟨u, hfirst, hmiddle⟩, hlast⟩
    · rintro ⟨v, hrun, hlast⟩
      obtain ⟨u, hfirst, hmiddle⟩ := run_succ_eq_next.mp hrun
      exact run_succ_eq_next.mpr ⟨u, hfirst, ih.mpr ⟨v, hmiddle, hlast⟩⟩

theorem State.slots_le_of_inv {s : State} (hinv : s.Inv) : s.mem.slots.length ≤ 2 ^ 32 := by
  obtain ⟨-, ⟨-, -, -, hlimit⟩, -, -⟩ := hinv
  exact hlimit

/-- Settles O49: a failed state is reached by a last step that raised, which is under the error's condition in the
state before; and a state in which a condition holds is followed by a failed one. -/
theorem runIsSafeExactlyWhenNoErrorConditionArises : Obligations.RunIsSafeExactlyWhenNoErrorConditionArises := by
  intro k s hinv hs
  constructor
  · intro hsafe j t hj hrun ht e hcause
    obtain ⟨u, hstep, hfaulted⟩ := step_of_errorCause ht (State.slots_le_of_inv (State.inv_run hinv hrun)) hcause
    exact hsafe (j + 1) u hj (run_succ_eq_next_last.mpr ⟨t, hrun, hstep⟩) ⟨e, hfaulted⟩
  · rintro hcauses (_ | j) t hj hrun ⟨e, hfaulted⟩
    · obtain rfl : s = t := Host.Outcome.next.inj hrun
      exact nomatch hs.symm.trans hfaulted
    · obtain ⟨u, hrun, hstep⟩ := run_succ_eq_next_last.mp hrun
      obtain ⟨hu, -⟩ := step_eq_next hstep
      have hslots := State.slots_le_of_inv (State.inv_run hinv hrun)
      exact hcauses j u hj hrun hu e (errorCause_of_step hslots hstep hfaulted)

end Sys2Proof.Machine

/-! ## What every step keeps, by the tag of the fetched word (40_execution_engine.md R112 to R116) -/

namespace Sys2Proof.Machine

/-! ### The tag of a decoded instruction (30_encoding.md R86) -/

/-- What a word that decodes gives, by its format: its tag's operation on its selectors, or Orthography. -/
theorem eq_r3Instr_or_orth_of_decode {w : Word} {i : Instr} (hi : decode w = .ok i) :
    (∃ tag : Fin 13, bits w 28 4 = tag ∧ i = r3Instr tag (selAt w 6) (selAt w 3) (selAt w 0)) ∨
      (bits w 28 4 = 13 ∧ i = .orth (selAt w 25) (immField w)) := by
  by_cases himm : bits w 28 4 = 13
  · exact .inr ⟨himm, Except.ok.inj (hi.symm.trans (decode_of_tag_eq_thirteen himm))⟩
  · obtain ⟨hr3, -⟩ := encode_of_decode_r3 hi himm
    exact .inl ⟨⟨_, hr3⟩, rfl, eq_r3Instr_of_decode hi rfl⟩

/-- A word decodes to an instruction of its own tag. -/
theorem tag_of_decode {w : Word} {i : Instr} (hi : decode w = .ok i) :
    Laws.EncodesItsTag.tag i = bits w 28 4 := by
  obtain ⟨tag, htag, rfl⟩ | ⟨himm, rfl⟩ := eq_r3Instr_or_orth_of_decode hi
  · rw [htag]
    fin_cases tag <;> rfl
  · exact himm.symm

/-- Settles O2: the three-register tags by the one lemma over them, tag 13 and the tags above by one each. -/
theorem decodeReadsItsFields : Obligations.DecodeReadsItsFields :=
  ⟨decodesR3_r3Instr 0, decodesR3_r3Instr 1, decodesR3_r3Instr 2, decodesR3_r3Instr 3, decodesR3_r3Instr 4,
    decodesR3_r3Instr 5, decodesR3_r3Instr 6, decodesR3_r3Instr 7, decodesR3_r3Instr 8, decodesR3_r3Instr 9,
    decodesR3_r3Instr 10, decodesR3_r3Instr 11, decodesR3_r3Instr 12,
    fun w hw => ⟨immField w, immField_toNat w, decode_of_tag_eq_thirteen hw⟩,
    fun w hw => (decode_eq_error_iff w).mpr hw⟩

/-- Settles O5: the decoder evaluated on ten words. -/
theorem specWordsDecode : Obligations.SpecWordsDecode := by
  unfold Obligations.SpecWordsDecode
  decide

/-- Every decoded instruction is well formed: an immediate field has 25 bits (30_encoding.md R85). -/
theorem wellFormed_of_decode {w : Word} {i : Instr} (hi : decode w = .ok i) : i.wellFormed = true := by
  obtain ⟨tag, _, rfl⟩ | ⟨_, rfl⟩ := eq_r3Instr_or_orth_of_decode hi
  · fin_cases tag <;> rfl
  · have hfits : (immField w).toNat < 2 ^ 25 := immField_toNat w ▸ bits_lt w 0 25
    exact decide_eq_true (Nat.le_of_lt_succ hfits)

/-- Settles O6: stages 2 to 4 on a word that decodes. -/
theorem stepRunsTheDecodedInstruction : Obligations.StepRunsTheDecodedInstruction :=
  fun _ _ _ hs hread hi => ⟨wellFormed_of_decode hi, step_of_decode_ok hs hread hi⟩

/-! ### Halting, faulting, jumping -/

/-- Settles O10: an error leaves the engine Faulted, and of the completed instructions Halt alone leaves it Halted. -/
theorem onlyHaltHalts : Obligations.OnlyHaltHalts := by
  intro s t hstep
  obtain ⟨hs, -⟩ := step_eq_next hstep
  constructor
  · intro ht
    obtain ⟨-, ⟨_, rfl⟩ | ⟨w, e, _, _, rfl⟩ | ⟨w, i, hfetch, hi, hdone⟩⟩ := step_outcome hstep
    · simp at ht
    · simp at ht
    · obtain hsame | ⟨_, a, b, c, rfl⟩ := hdone.status
      · simp [hsame, hs] at ht
      · exact ⟨w, hfetch, (tag_of_decode hi).symm⟩
  · rintro ⟨w, hread, htag⟩
    have hhalt := step_of_decode_ok hs hread (decodesR3_r3Instr 7 w htag)
    obtain rfl : s.advance.halt = t := Host.Outcome.next.inj (hhalt.symm.trans hstep)
    rfl

/-- Settles O11: a failed state is one of the two that `step_outcome` names, and both are a fail, which keeps the
frame. -/
theorem errorsArePrecise : Obligations.ErrorsArePrecise := by
  intro s t e hstep ht
  obtain ⟨hs, ⟨_, rfl⟩ | ⟨w, e', hfetch, hkind, rfl⟩ | ⟨w, i, _, _, hdone⟩⟩ := step_outcome hstep
  · obtain rfl : ErrorKind.programCounterOverrun = e := by simpa using ht
    obtain ⟨hregs, hheap, hstreams, hparams⟩ := fail_frame s .programCounterOverrun s.pc 0#32
    exact ⟨hregs, hheap, hstreams, hparams, fun _ => ⟨rfl, rfl⟩, fun hne => absurd rfl hne⟩
  · obtain rfl : e' = e := by simpa using ht
    obtain ⟨hregs, hheap, hstreams, hparams⟩ := fail_frame s.advance e' s.pc w
    exact ⟨hregs, hheap, hstreams, hparams, fun heq => absurd heq hkind, fun _ => ⟨rfl, w, hfetch, rfl⟩⟩
  · obtain hsame | ⟨hhalted, _⟩ := hdone.status
    · simp [hsame, hs] at ht
    · simp [hhalted] at ht

/-- Only LoadProgram changes `pc` (10_state.md R24). -/
theorem Completes.pc {i : Instr} {s t : State} (h : Completes s i t) (hi : ∀ a b c, i ≠ .loadp a b c) :
    t.pc = s.pc := by
  cases h with
  | jump => exact (hi _ _ _ rfl).elim
  | load => exact (hi _ _ _ rfl).elim
  | _ => rfl

/-- Settles O39: the fetch increments `pc`, and neither an error nor an instruction other than LoadProgram changes
it after. -/
theorem onlyLoadProgramJumps : Obligations.OnlyLoadProgramJumps := by
  intro s t w hstep hread htag
  obtain ⟨-, ⟨hnone, _⟩ | ⟨_, _, _, _, rfl⟩ | ⟨w', i, hfetch, hi, hdone⟩⟩ := step_outcome hstep
  · exact nomatch hread.symm.trans hnone
  · rfl
  · obtain rfl : w = w' := Option.some.inj (hread.symm.trans hfetch)
    refine hdone.pc ?_
    rintro a b c rfl
    exact htag (tag_of_decode hi).symm

/-- Settles O42: the fetch was below the length of array 0, which is below 2^32. -/
theorem incrementNeverWraps : Obligations.IncrementNeverWraps := by
  intro s t w hwf hstep hread htag
  obtain ⟨a, harr, hlt, -⟩ := Memory.read_eq_some.mp hread
  obtain ⟨hlen, -, -⟩ := Memory.wf_of_array? hwf harr
  rw [onlyLoadProgramJumps s t w hstep hread htag, BitVec.toNat_add, BitVec.toNat_one (by decide),
    Nat.mod_eq_of_lt (by simp only [Config.wordCount] at hlen; omega)]

/-! ### What only grows -/

/-- An instruction leaves the output as it is, or is Output and appends a byte (10_state.md R35). -/
theorem Completes.out {i : Instr} {s t : State} (h : Completes s i t) :
    t.out = s.out ∨ (∃ a b c, i = .out a b c) ∧ ∃ byte, t.out = s.out ++ [byte] := by
  cases h with
  | emit => exact .inr ⟨⟨_, _, _, rfl⟩, _, rfl⟩
  | _ => exact .inl rfl

/-- Settles O40: an error keeps the output, and of the completed instructions Output alone appends to it. -/
theorem outputOnlyGrows : Obligations.OutputOnlyGrows := by
  intro s t hstep
  obtain ⟨-, ⟨_, rfl⟩ | ⟨_, _, _, _, rfl⟩ | ⟨w, i, hfetch, hi, hdone⟩⟩ := step_outcome hstep
  · exact .inl rfl
  · exact .inl rfl
  · obtain hsame | ⟨⟨a, b, c, rfl⟩, byte, hout⟩ := hdone.out
    · exact .inl hsame
    · exact .inr ⟨w, byte, hfetch, (tag_of_decode hi).symm, hout⟩

/-- The number of slots after `HeapAlloc`: one more exactly when no handle was free. -/
theorem Memory.length_heapAlloc {m n : Memory} {ok : Bool} {k h : Word} (e : m.heapAlloc ok k = some (h, n)) :
    n.slots.length = m.slots.length ∨ n.slots.length = m.slots.length + 1 ∧ m.free = [] := by
  obtain ⟨_, ⟨rest, _, rfl⟩ | ⟨hfree, _, _, rfl⟩⟩ := Memory.heapAlloc_eq_some.mp e
  · exact .inl (by simp)
  · exact .inr ⟨by simp, hfree⟩

/-- An instruction keeps the number of slots, or is Allocation on an empty free stack and adds one (R31). -/
theorem Completes.slots {i : Instr} {s t : State} (h : Completes s i t) :
    t.mem.slots.length = s.mem.slots.length ∨
      (∃ a b c, i = .alloc a b c) ∧ t.mem.slots.length = s.mem.slots.length + 1 ∧ s.mem.free = [] := by
  cases h with
  | store hwrite =>
    obtain ⟨-, -, -, hslots, -⟩ := Memory.write_spec hwrite
    exact .inl hslots
  | allocate halloc => exact (Memory.length_heapAlloc halloc).imp id fun hgrown => ⟨⟨_, _, _, rfl⟩, hgrown⟩
  | abandon => exact .inl (Memory.length_heapFree ..)
  | load => exact .inl (Memory.length_setProgram ..)
  | _ => exact .inl rfl

/-- Settles O41: an error keeps the slots, and of the completed instructions Allocation alone appends one. -/
theorem slotsOnlyGrow : Obligations.SlotsOnlyGrow := by
  intro s t hstep
  obtain ⟨-, ⟨_, rfl⟩ | ⟨_, _, _, _, rfl⟩ | ⟨w, i, hfetch, hi, hdone⟩⟩ := step_outcome hstep
  · exact .inl rfl
  · exact .inl rfl
  · obtain hsame | ⟨⟨a, b, c, rfl⟩, hlength, hfree⟩ := hdone.slots
    · exact .inl hsame
    · exact .inr ⟨hlength, hfree, w, hfetch, (tag_of_decode hi).symm⟩

end Sys2Proof.Machine

/-! ## What each instruction leaves alone, and the registers it reads and writes
(10_state.md R21; 20_memory.md R52; 40_execution_engine.md R114) -/

namespace Sys2Proof.Machine

/-! ### The state outside the registers -/

theorem Completes.params {i : Instr} {s t : State} (h : Completes s i t) : SameParams s t := by
  cases h <;> exact ⟨rfl, rfl⟩

/-- Only Input consumes input (10_state.md R34). -/
theorem Completes.inPos {i : Instr} {s t : State} (h : Completes s i t) (hi : ∀ a b c, i ≠ .inp a b c) :
    t.inPos = s.inPos := by
  cases h with
  | consume => exact (hi _ _ _ rfl).elim
  | _ => rfl

/-- Only ArrayAmendment, Allocation, Abandonment and LoadProgram change the heap (20_memory.md section 1). -/
theorem Completes.heap {i : Instr} {s t : State} (h : Completes s i t)
    (hi : ∀ a b c, i ≠ .amend a b c ∧ i ≠ .alloc a b c ∧ i ≠ .aband a b c ∧ i ≠ .loadp a b c) :
    SameHeap s t := by
  cases h with
  | @store a b c => simpa using hi a b c
  | @allocate a b c => simpa using hi a b c
  | @abandon a b c => simpa using hi a b c
  | @load a b c => simpa using hi a b c
  | _ => exact ⟨rfl, fun _ _ => rfl⟩

/-- Settles O35: an error writes the status and the fault record alone, and each component is changed by the
completed instructions that its lemma excludes. -/
theorem handlersTouchOnlyTheirState : Obligations.HandlersTouchOnlyTheirState := by
  intro i s t hexec
  obtain hdone | ⟨e, _, rfl⟩ := exec_next hexec
  · refine ⟨hdone.pc, fun hhalt => ?status, hdone.inPos, fun hout => ?out, hdone.heap, hdone.params⟩
    case status =>
      obtain hsame | ⟨_, a, b, c, rfl⟩ := hdone.status
      · exact .inl ⟨hsame, hdone.fault⟩
      · exact (hhalt a b c rfl).elim
    case out =>
      obtain hsame | ⟨⟨a, b, c, rfl⟩, _⟩ := hdone.out
      · exact hsame
      · exact (hout a b c rfl).elim
  · obtain ⟨hstatus, _, hpc, _, hheap, ⟨hin, hout⟩, hparams⟩ := raised_raise e s
    exact ⟨fun _ => hpc, fun _ => .inr ⟨e, hstatus⟩, fun _ => hin, fun _ => hout, fun _ => hheap, hparams⟩

/-- Settles O36: a store and a copy of the program each keep the topology, and nothing else but Allocation and
Abandonment touches the heap. -/
theorem onlyAllocationAndAbandonmentChangeTopology : Obligations.OnlyAllocationAndAbandonmentChangeTopology := by
  intro i s t h0 hexec hi
  obtain hdone | ⟨e, _, rfl⟩ := exec_next hexec
  · cases hdone with
    | store hwrite =>
      obtain ⟨-, -, hshape, hslots, hfree⟩ := Memory.write_spec hwrite
      exact ⟨hslots, hfree, fun g => (hshape g).1⟩
    | @allocate a b c => simpa using hi a b c
    | @abandon a b c => simpa using hi a b c
    | load => exact ⟨Memory.length_setProgram .., rfl, Memory.live_setProgram h0 _⟩
    | _ => exact ⟨rfl, rfl, fun _ => rfl⟩
  · exact ⟨rfl, rfl, fun _ => rfl⟩

/-! ### Registers written (R21, right column) -/

theorem sameRegsBut_setReg_of_mem {rs : List Sel} {r : Sel} (hr : r ∈ rs) {s u : State}
    (hregs : u.regs = s.regs) (v : Word) : SameRegsBut rs s (u.setReg r v) := by
  intro q hq
  have hne : q ≠ r := fun heq => hq (heq ▸ hr)
  rw [State.reg_setReg, if_neg hne, State.reg, hregs, State.reg]

/-- Settles O37: Allocation and Input write their register after an update that keeps the registers; the other
completed instructions write the one register, or none. -/
theorem onlyTheTablesRegisterIsWritten : Obligations.OnlyTheTablesRegisterIsWritten := by
  intro i s t hexec
  obtain hdone | ⟨e, _, rfl⟩ := exec_next hexec
  · cases hdone with
    | writeReg hr => exact sameRegsBut_setReg_of_mem hr rfl _
    | allocate => exact sameRegsBut_setReg_of_mem (.head _) (State.regs_setMem ..) _
    | consume => exact sameRegsBut_setReg_of_mem (.head _) (State.regs_inputAdvance _) _
    | _ => exact fun _ _ => rfl
  · exact fun _ _ => rfl

/-! ### Registers read (R21, middle column) -/

/-- Two results differ in the registers only, and each register was given the same value in both or left alone in
both. -/
def AgreeBut (s s' t t' : State) : Prop :=
  t' = t.withRegs t'.regs ∧ ∀ r, t'.reg r = t.reg r ∨ (t'.reg r = s'.reg r ∧ t.reg r = s.reg r)

@[simp] theorem State.mem_withRegs (s : State) (regs : Vector Word Config.nregs) :
    (s.withRegs regs).mem = s.mem := rfl

@[simp] theorem State.allocOK_withRegs (s : State) (regs : Vector Word Config.nregs) (n : Nat) :
    (s.withRegs regs).allocOK n = s.allocOK n := rfl

@[simp] theorem State.inputByte_withRegs (s : State) (regs : Vector Word Config.nregs) :
    (s.withRegs regs).inputByte = s.inputByte := rfl

section
variable {s u : State} (regs : Vector Word Config.nregs)

/-- Results that left every register alone. -/
theorem agreeBut_withRegs (hregs : u.regs = s.regs) :
    AgreeBut s (s.withRegs regs) u (u.withRegs regs) := by
  refine ⟨rfl, fun r => .inr ⟨rfl, ?_⟩⟩
  rw [State.reg, hregs, State.reg]

/-- Results that wrote the same value to the same register. -/
theorem agreeBut_setReg (hregs : u.regs = s.regs) (a : Sel) (v : Word) :
    AgreeBut s (s.withRegs regs) (u.setReg a v) ((u.withRegs regs).setReg a v) := by
  refine ⟨rfl, fun r => ?_⟩
  rw [State.reg_setReg, State.reg_setReg]
  by_cases hr : r = a
  · exact .inl (by rw [if_pos hr, if_pos hr])
  · rw [if_neg hr, if_neg hr]
    exact (agreeBut_withRegs regs hregs).2 r

end

/-- Settles O38: each handler's tests and operands are functions of the registers listed and of the state outside
the registers, so it takes the same branch on both states, and each branch keeps the agreement. -/
theorem onlyTheTablesRegistersAreRead : Obligations.OnlyTheTablesRegistersAreRead := by
  intro i s t regs hexec hreads
  suffices ∃ t', exec i (s.withRegs regs) = .next t' ∧ AgreeBut s (s.withRegs regs) t t' from this
  have hkeep (u : State) (hu : u.regs = s.regs) := agreeBut_withRegs regs hu
  have hwrite (u : State) (hu : u.regs = s.regs) := agreeBut_setReg regs hu
  cases i <;> cases hexec <;> refine ⟨_, rfl, ?_⟩ <;>
    simp only [Instr.reads, List.forall_mem_cons] at hreads
  case cmov =>
    simp only [hreads]
    split
    · exact hwrite s rfl ..
    · exact hkeep s rfl
  case aidx =>
    simp only [hreads, State.mem_withRegs]
    split
    · exact hwrite s rfl ..
    · exact hkeep (s.raise _) rfl
  case amend =>
    simp only [hreads, State.mem_withRegs]
    split
    · exact hkeep (s.setMem _) rfl
    · exact hkeep (s.raise _) rfl
  case add | mul | nand =>
    simp only [hreads]
    exact hwrite s rfl ..
  case div =>
    simp only [hreads]
    split
    · exact hwrite s rfl ..
    · exact hkeep (s.raise _) rfl
  case halt => exact hkeep s.halt rfl
  case alloc =>
    simp only [hreads, State.mem_withRegs, State.allocOK_withRegs]
    split
    · next m _ => exact hwrite (s.setMem m) rfl ..
    · exact hkeep (s.raise _) rfl
  case aband =>
    simp only [hreads, State.mem_withRegs]
    split
    · exact hkeep (s.setMem _) rfl
    · exact hkeep (s.raise _) rfl
  case out =>
    simp only [hreads]
    split
    · exact hkeep (s.outputWrite _) rfl
    · exact hkeep (s.raise _) rfl
  case inp =>
    simp only [State.inputByte_withRegs]
    split
    · exact hwrite s.inputAdvance rfl ..
    · exact hwrite s rfl ..
  case loadp =>
    simp only [hreads, State.mem_withRegs, State.allocOK_withRegs]
    split
    · split
      · exact hkeep (s.raise _) rfl
      · split
        · exact hkeep (s.raise _) rfl
        · split
          · exact hkeep ((s.setMem _).setPc _) rfl
          · exact hkeep (s.raise _) rfl
    · exact hkeep (s.setPc _) rfl
  case orth => exact hwrite s rfl ..

end Sys2Proof.Machine

/-! ## Allocation and Abandonment: their effects, stale handles and fresh ones
(45_heap_management.md R165 to R171; 20_memory.md R65) -/

namespace Sys2Proof.Machine

/-- What Allocation leaves alone when it returns `g` (45_heap_management.md R165). -/
theorem alloc_frame (s : State) (m : Memory) (b : Sel) (g : Word) :
    SameRegsBut [b] s ((s.setMem m).setReg b g) ∧ SameEngine s ((s.setMem m).setReg b g) ∧
      SameStreams s ((s.setMem m).setReg b g) ∧ SameParams s ((s.setMem m).setReg b g) :=
  ⟨sameRegsBut_setReg_of_mem (.head _) (State.regs_setMem s m) g, ⟨rfl, rfl, rfl⟩, ⟨rfl, rfl⟩, rfl, rfl⟩

/-- A new array is live, has the length asked for and reads zero everywhere (20_memory.md R65). -/
theorem Memory.zeros_of_array? {m : Memory} {h k : Word} (e : m.array? h = some (WordArray.zeros k.toNat)) :
    m.live h = true ∧ m.len h = k.toNat ∧ ∀ i : Word, i.toNat < k.toNat → m.read h i = some 0#32 := by
  refine ⟨Memory.live_of_array? e, Memory.len_of_array? e, fun i hi => ?_⟩
  rw [Memory.read_of_array? e, if_pos (by simpa using hi), WordArray.get_zeros]

/-- `HeapAlloc` makes one array, at the handle it returns, and leaves every other array alone. -/
theorem Memory.heapAlloc_spec {m n : Memory} {ok : Bool} {k h : Word} (e : m.heapAlloc ok k = some (h, n))
    (hin : h ∈ m.free → h.toNat < m.slots.length) :
    (n.live h = true ∧ n.len h = k.toNat ∧ ∀ i : Word, i.toNat < k.toNat → n.read h i = some 0#32) ∧
      ∀ g, g ≠ h → n.live g = m.live g ∧ n.len g = m.len g ∧ ∀ i, n.read g i = m.read g i :=
  ⟨Memory.zeros_of_array? ((Memory.array?_heapAlloc e hin h).trans (if_pos rfl)),
    fun g hg => Memory.same_of_array? ((Memory.array?_heapAlloc e hin g).trans (if_neg hg))⟩

theorem exec_alloc_of_heapAlloc {a b c : Sel} {s : State} {g : Word} {m : Memory}
    (halloc : s.mem.heapAlloc (s.allocOK (s.reg c).toNat) (s.reg c) = some (g, m)) :
    exec (.alloc a b c) s = .next ((s.setMem m).setReg b g) := by
  simp only [exec, execAlloc, halloc]

/-- Settles O21: which of the three cases of HeapAlloc applies decides the handle and the topology; the new array
and the frame are those of every allocation. -/
theorem allocationEffect : Obligations.AllocationEffect := by
  refine ⟨decodesR3_r3Instr 8, fun a b c s => ⟨fun h rest hok hfree hlt => ?reuse, fun hok hfree hlt => ?grow,
    fun hfail => ⟨_, exec_of_raises (.alloc (hfail.imp_right (And.imp_right Eq.ge))), raised_raise _ s⟩⟩⟩
  case reuse =>
    have halloc := Memory.heapAlloc_eq_some (k := s.reg c).mpr ⟨hok, .inl ⟨rest, hfree, rfl⟩⟩
    obtain ⟨⟨hlive, hlen, hzero⟩, hothers⟩ := Memory.heapAlloc_spec halloc fun _ => hlt
    exact ⟨_, exec_alloc_of_heapAlloc halloc, State.reg_setReg_same .., rfl, List.length_set, hlive, hlen, hzero,
      hothers, alloc_frame ..⟩
  case grow =>
    have halloc := Memory.heapAlloc_eq_some (k := s.reg c).mpr ⟨hok, .inr ⟨hfree, hlt, rfl, rfl⟩⟩
    obtain ⟨⟨hlive, hlen, hzero⟩, hothers⟩ := Memory.heapAlloc_spec halloc (by simp [hfree])
    refine ⟨_, exec_alloc_of_heapAlloc halloc, ?_⟩
    rw [State.reg_setReg_same, BitVec.toNat_ofNat, Nat.mod_eq_of_lt hlt]
    exact ⟨rfl, rfl, List.length_append, hlive, hlen, hzero, hothers, alloc_frame ..⟩

/-- What `HeapFree` does to the arrays (45_heap_management.md R170). -/
theorem Memory.heapFree_spec {m : Memory} {h : Word} (hl : m.live h = true) :
    ((m.heapFree h).live h = false ∧ ∀ i, (m.heapFree h).read h i = none) ∧
      ∀ g, g ≠ h → (m.heapFree h).live g = m.live g ∧ (m.heapFree h).len g = m.len g ∧
        ∀ i, (m.heapFree h).read g i = m.read g i := by
  have hdead : (m.heapFree h).live h = false := by simp [Memory.live, Memory.array?_heapFree hl]
  exact ⟨⟨hdead, fun i => Memory.read_eq_none.mpr (.inl hdead)⟩,
    fun g hg => Memory.same_of_array? ((Memory.array?_heapFree hl g).trans (if_neg hg))⟩

theorem exec_aband_of_live {a b c : Sel} {s : State} (hne : s.reg c ≠ 0#32) (hlive : s.mem.live (s.reg c) = true) :
    exec (.aband a b c) s = .next (s.setMem (s.mem.heapFree (s.reg c))) := by
  rw [exec, execAband, if_pos ⟨hne, hlive⟩]

/-- Settles O22: the check decides between HeapFree, with nothing outside the heap written, and the error raised. -/
theorem abandonmentEffect : Obligations.AbandonmentEffect := by
  refine ⟨decodesR3_r3Instr 9, fun a b c s => ⟨fun hne hlive => ?_, fun hbad => ?_⟩⟩
  · obtain ⟨⟨hdead, hnone⟩, hothers⟩ := Memory.heapFree_spec hlive
    exact ⟨_, exec_aband_of_live hne hlive, hdead, rfl, Memory.length_heapFree .., hnone, hothers,
      setMem_frame s _⟩
  · exact ⟨_, exec_aband_of_bad hbad, raised_raise _ s⟩

/-! ### Stale handles -/

/-- Right after a successful Abandonment the handle, which is not 0, is not live. -/
theorem not_live_after_aband {a b c : Sel} {s t : State} (h : exec (.aband a b c) s = .next t)
    (ht : t.status = .running) : s.reg c ≠ 0#32 ∧ t.mem.live (s.reg c) = false := by
  obtain ⟨hne, hlive, rfl⟩ := exec_aband_running h ht
  obtain ⟨⟨hdead, -⟩, -⟩ := Memory.heapFree_spec hlive
  exact ⟨hne, hdead⟩

/-- Settles O29: the abandoned handle is not live, which is the condition of all four errors. -/
theorem staleHandleFaults : Obligations.StaleHandleFaults := by
  intro a b c s t _ haband ht p q r
  obtain ⟨hne, hdead⟩ := not_live_after_aband haband ht
  have hraised {i : Instr} (hraises : Raises t i .outOfBoundsAccess) :
      ∃ u, exec i t = .next u ∧ Raised .outOfBoundsAccess t u :=
    ⟨_, exec_of_raises hraises, raised_raise _ t⟩
  exact ⟨fun hq => hraised (.aidx (.inl (hq ▸ hdead))), fun hp => hraised (.amend (.inl (hp ▸ hdead))),
    fun hr => hraised (.aband (.inr (hr ▸ hdead))), fun hq => hraised (.loadpSource (hq ▸ hne) (.inl (hq ▸ hdead)))⟩

/-! ### Reused and fresh handles -/

/-- Settles O30: the freed handle is on top of the free stack, so the allocation returns it, with a zero array. -/
theorem reusedHandleReadsZero : Obligations.ReusedHandleReadsZero := by
  intro a b c p q r s t u _ haband ht halloc hu
  obtain ⟨_, hlive, rfl⟩ := exec_aband_running haband ht
  obtain ⟨arr, harr⟩ := Memory.array?_of_live hlive
  obtain ⟨g, m, hgranted, rfl⟩ := exec_alloc_running halloc hu
  obtain ⟨rfl, -⟩ := Memory.heapAlloc_pops (Memory.free_heapFree ..) hgranted
  obtain ⟨⟨_, hlen, hzero⟩, -⟩ := Memory.heapAlloc_spec hgranted fun _ => by
    simpa using Memory.lt_of_array? harr
  exact ⟨State.reg_setReg_same .., hlen, hzero⟩

/-- Settles O31: by the heap invariants the returned handle was free or beyond the slots, so not live, and so not
handle 0. -/
theorem allocatedHandleIsFresh : Obligations.AllocatedHandleIsFresh := by
  intro a b c s t hinv _ halloc ht
  obtain ⟨-, hcons, -, -⟩ := hinv
  obtain ⟨g, m, hgranted, rfl⟩ := exec_alloc_running halloc ht
  have hdead := Memory.not_live_of_heapAlloc hcons hgranted
  obtain ⟨-, ⟨hrange, -⟩, ⟨hzero, -⟩, -⟩ := hcons
  rw [State.reg_setReg_same]
  refine ⟨?_, hdead, (Memory.live_heapAlloc hgranted (hrange g) g).mpr (.inl rfl)⟩
  rintro rfl
  exact Bool.noConfusion (hzero.symm.trans hdead)

end Sys2Proof.Machine

/-! ## Halt, Output, Input and LoadProgram (44_halt.md R160; 46_io.md R185, R189; 47_load_program.md R200) -/

namespace Sys2Proof.Machine

/-- Settles O20: the handler writes the status alone, and a stopped engine takes no step. -/
theorem haltEffect : Obligations.HaltEffect := by
  refine ⟨decodesR3_r3Instr 7, fun a b c s => ?_⟩
  obtain ⟨f, hstopped⟩ := step_stopped (s := s.halt) nofun
  exact ⟨s.halt, rfl, rfl, rfl, rfl, fun _ _ => rfl, ⟨rfl, fun _ _ => rfl⟩, ⟨rfl, rfl⟩, ⟨rfl, rfl⟩,
    fun u hu => nomatch hstopped.symm.trans hu⟩

/-! ### Output and Input -/

theorem toNat_lowByte {v : Word} (hv : v.toNat ≤ 255) : (lowByte v).toNat = v.toNat := by
  simp only [lowByte, BitVec.extractLsb'_toNat, Nat.shiftRight_zero]
  omega

theorem exec_out_of_isByte {a b c : Sel} {s : State} (hbyte : (s.reg c).toNat ≤ 255) :
    exec (.out a b c) s = .next (s.outputWrite (lowByte (s.reg c))) := by
  simp [exec, execOut, isByte, hbyte]

/-- Settles O23: the range check decides between the byte appended and the error raised. -/
theorem outputEffect : Obligations.OutputEffect := by
  refine ⟨decodesR3_r3Instr 10, fun a b c s => ⟨fun hbyte => ?_, fun hlarge => ?_⟩⟩
  · exact ⟨_, lowByte (s.reg c), exec_out_of_isByte hbyte, rfl, toNat_lowByte hbyte, rfl, fun _ _ => rfl,
      ⟨rfl, fun _ _ => rfl⟩, ⟨rfl, rfl, rfl⟩, rfl, rfl⟩
  · exact ⟨_, exec_out_of_large hlarge, raised_raise _ s⟩

theorem toNat_widenByte (b : Byte) : (widenByte b).toNat = b.toNat :=
  BitVec.toNat_setWidth_of_le (by decide)

/-- Input cannot fail: it takes a byte, or writes the end-of-stream value (46_io.md R189, R190). -/
theorem exec_inp_completes (a b c : Sel) (s : State) :
    ∃ t, exec (.inp a b c) s = .next t ∧
      ((∃ byte, s.input[s.inPos]? = some byte ∧ t = s.inputAdvance.setReg c (widenByte byte)) ∨
        (s.input.length ≤ s.inPos ∧ t = s.setReg c Config.eofValue)) :=
  ⟨_, rfl, execInp_next rfl⟩

/-- Settles O24: there is a next byte or there is none, never both, and each way ends in one register write. -/
theorem inputEffect : Obligations.InputEffect := by
  refine ⟨decodesR3_r3Instr 11, fun a b c s => ?_⟩
  obtain ⟨t, hexec, ⟨byte, hnext, rfl⟩ | ⟨hend, rfl⟩⟩ := exec_inp_completes a b c s
  · have hwithin : s.inPos < s.input.length := (List.getElem?_eq_some_iff.mp hnext).1
    refine ⟨_, hexec, fun byte' hnext' => ⟨?_, rfl⟩, fun hend => absurd hwithin hend.not_gt, rfl,
      sameRegsBut_setReg_of_mem (.head _) (State.regs_inputAdvance s) _, ⟨rfl, fun _ _ => rfl⟩, ⟨rfl, rfl, rfl⟩,
      rfl, rfl⟩
    obtain rfl : byte = byte' := Option.some.inj (hnext.symm.trans hnext')
    rw [State.reg_setReg_same, toNat_widenByte]
  · refine ⟨_, hexec, fun byte hnext => ?_, fun _ => ⟨State.reg_setReg_same .., rfl⟩, rfl,
      sameRegsBut_setReg s c _, ⟨rfl, fun _ _ => rfl⟩, ⟨rfl, rfl, rfl⟩, rfl, rfl⟩
    exact nomatch hnext.symm.trans (List.getElem?_eq_none hend)

/-! ### LoadProgram -/

/-- What replacing the program does to the arrays, where there is a slot 0 (47_load_program.md R200). -/
theorem Memory.setProgram_spec {m : Memory} {h : Word} {a : WordArray} (e : m.array? h = some a) :
    ((m.setProgram a).live 0#32 = true ∧ (m.setProgram a).len 0#32 = m.len h ∧
        ∀ i, (m.setProgram a).read 0#32 i = m.read h i) ∧
      ∀ g, g ≠ 0#32 → (m.setProgram a).live g = m.live g ∧ (m.setProgram a).len g = m.len g ∧
        ∀ i, (m.setProgram a).read g i = m.read g i := by
  have hslots : 0 < m.slots.length := Nat.zero_lt_of_lt (Memory.lt_of_array? e)
  have hcopy : (m.setProgram a).array? 0#32 = some a := (Memory.array?_setProgram hslots a 0#32).trans (if_pos rfl)
  refine ⟨⟨Memory.live_of_array? hcopy, ?_, fun i => ?_⟩,
    fun g hg => Memory.same_of_array? ((Memory.array?_setProgram hslots a g).trans (if_neg hg))⟩
  · rw [Memory.len_of_array? hcopy, Memory.len_of_array? e]
  · rw [Memory.read_of_array? hcopy, Memory.read_of_array? e]

theorem exec_loadp_of_zero {a b c : Sel} {s : State} (hzero : s.reg b = 0#32) :
    exec (.loadp a b c) s = .next (s.setPc (s.reg c)) := by
  simp [exec, execLoadp, nonZero, hzero]

/-- Settles O25: `x[B] = 0` is a jump; else the source decides between the copy of `Memory.setProgram_spec` and the
two errors. -/
theorem loadProgramEffect : Obligations.LoadProgramEffect := by
  refine ⟨decodesR3_r3Instr 12, fun a b c s => ⟨fun hzero => ?jump, fun hne hlive hlen hok => ?copy,
    fun hne hbad => ⟨_, exec_loadp_of_badSource hne hbad, raised_raise _ s⟩,
    fun hne hlive hlen hdeny => ⟨_, exec_loadp_of_denied hne hlive hlen hdeny, raised_raise _ s⟩⟩⟩
  case jump =>
    exact ⟨_, exec_loadp_of_zero hzero, rfl, rfl, rfl, fun _ _ => rfl, ⟨rfl, fun _ _ => rfl⟩, ⟨rfl, rfl⟩, rfl, rfl⟩
  case copy =>
    obtain ⟨arr, harr⟩ := Memory.array?_of_live hlive
    obtain ⟨⟨hprogram, hlength, hwords⟩, hothers⟩ := Memory.setProgram_spec harr
    rw [Memory.len_of_array? harr] at hlen hok
    refine ⟨_, (exec_loadp_of_goodSource hne harr hlen).trans (congrArg _ (if_pos hok)), ?_⟩
    exact ⟨rfl, rfl, rfl, hprogram, hlength, hwords, hothers, rfl, Memory.length_setProgram .., fun _ _ => rfl,
      ⟨rfl, rfl⟩, rfl, rfl⟩

end Sys2Proof.Machine

/-! ## Reads, stores and copies of the heap's words (20_memory.md R50, R56, R63; 10_state.md R30) -/

namespace Sys2Proof.Machine

/-- Settles O27: a read fails exactly on an invalid address, and a live handle has an array in a slot. -/
theorem readSucceedsExactlyOnValidAddresses : Obligations.ReadSucceedsExactlyOnValidAddresses := by
  intro m h i
  constructor
  · rw [← Option.ne_none_iff_exists', ne_eq, Memory.read_eq_none]
    simp
  · intro hlive
    obtain ⟨a, harr⟩ := Memory.array?_of_live hlive
    exact Memory.lt_of_array? harr

/-- An ArrayAmendment that leaves the engine Running stored the word. -/
theorem exec_amend_running {a b c : Sel} {s t : State} (h : exec (.amend a b c) s = .next t)
    (ht : t.status = .running) :
    ∃ m, s.mem.write (s.reg a) (s.reg b) (s.reg c) = some m ∧ t = s.setMem m := by
  obtain hstored | ⟨-, rfl⟩ := execAmend_next h
  · exact hstored
  · simp at ht

/-- Settles O32: the store changes the heap alone, so the next fetch is at the address stored to. -/
theorem storeIsSeenByTheNextFetch : Obligations.StoreIsSeenByTheNextFetch := by
  intro a b c s t i hs ha hb hexec ht hi
  obtain ⟨m, hwrite, rfl⟩ := exec_amend_running hexec ht
  obtain ⟨hstored, -⟩ := Memory.write_spec hwrite
  rw [ha, hb] at hstored
  exact ⟨hstored, step_of_decode_ok ht hstored hi⟩

/-- An ArrayAmendment changes no array but the one at its handle, whether it stores or raises. -/
theorem exec_amend_keeps_other {a b c : Sel} {s t : State} (h : exec (.amend a b c) s = .next t) {g : Word}
    (hg : g ≠ s.reg a) (i : Word) : t.mem.read g i = s.mem.read g i := by
  obtain ⟨m, hwrite, rfl⟩ | ⟨-, rfl⟩ := execAmend_next h
  · obtain ⟨-, hothers, -⟩ := Memory.write_spec hwrite
    exact hothers g i fun heq => hg (congrArg Prod.fst heq)
  · rfl

/-- After a LoadProgram that copied, array 0 and the source both read as the source did. -/
theorem read_after_copy {a b c : Sel} {s t : State} (hne : s.reg b ≠ 0#32)
    (h : exec (.loadp a b c) s = .next t) (ht : t.status = .running) (i : Word) :
    t.mem.read 0#32 i = s.mem.read (s.reg b) i ∧ t.mem.read (s.reg b) i = s.mem.read (s.reg b) i := by
  cases exec_running h ht with
  | writeReg hr => exact absurd hr List.not_mem_nil
  | jump hzero => exact absurd hzero hne
  | load _ harr =>
    obtain ⟨⟨-, -, hcopy⟩, hothers⟩ := Memory.setProgram_spec harr
    obtain ⟨-, -, hsource⟩ := hothers _ hne
    exact ⟨hcopy i, hsource i⟩

/-- Settles O33: the two handles differ, so a store to one array leaves the other as the copy left it. -/
theorem loadedProgramIsAnIndependentCopy : Obligations.LoadedProgramIsAnIndependentCopy := by
  intro a b c p q r s t u _ hne hload ht hstore
  have hcopy (i : Word) := read_after_copy hne hload ht i
  exact ⟨fun hp i => (exec_amend_keeps_other hstore (hp ▸ hne.symm) i).trans (hcopy i).1,
    fun hp i => (exec_amend_keeps_other hstore (hp ▸ hne) i).trans (hcopy i).2⟩

/-- A slot set to the array it holds. -/
theorem Memory.set_array?_self {m : Memory} {h : Word} {a : WordArray} (e : m.array? h = some a) :
    m.slots.set h.toNat (some a) = m.slots := by
  have hlt := Memory.lt_of_array? e
  rw [Memory.array?, List.getElem?_eq_getElem hlt, Option.getD_some] at e
  rw [← e, List.set_getElem_self]

/-- Storing the value already present gives the same heap, in canonical form (20_memory.md R56). -/
theorem Memory.write_read_self {m : Memory} (hm : m.wf) {h i v : Word} (hread : m.read h i = some v) :
    m.write h i v = some m := by
  obtain ⟨a, harr, hlt, rfl⟩ := Memory.read_eq_some.mp hread
  refine Memory.write_eq_some.mpr ⟨a, harr, hlt, ?_⟩
  rw [WordArray.set_get_self (Memory.wf_of_array? hm harr), Memory.set_array?_self harr]

/-- Settles O34: the write gives the heap itself back. -/
theorem storingThePresentValueChangesNothing : Obligations.StoringThePresentValueChangesNothing :=
  fun _ _ _ _ hwf hread => exec_amend_of_write (Memory.write_read_self hwf hread)

end Sys2Proof.Machine

/-! ## The image file (70_reset_and_hazards.md R262 to R264; 20_memory.md R54) -/

namespace Sys2Proof.Machine

/-- The place values of a big-endian word (20_memory.md R54). -/
theorem toNat_wordOfBytes (b0 b1 b2 b3 : Byte) : (wordOfBytes b0 b1 b2 b3).toNat =
    b0.toNat * 2 ^ 24 + b1.toNat * 2 ^ 16 + b2.toNat * 2 ^ 8 + b3.toNat := by
  have append {n : Nat} (x : BitVec n) (y : Byte) : (x ++ y).toNat = x.toNat * 2 ^ 8 + y.toNat := by
    rw [BitVec.toNat_append, ← Nat.shiftLeft_add_eq_or_of_lt y.isLt, Nat.shiftLeft_eq]
  rw [wordOfBytes, append, append, append]
  ring

/-- A byte sequence has words exactly when its length is a multiple of 4. -/
theorem wordsOfBytes_eq_none_iff (f : List Byte) : wordsOfBytes f = none ↔ f.length % 4 ≠ 0 := by
  induction f using wordsOfBytes.induct with
  | case1 => simp [wordsOfBytes]
  | case2 b0 b1 b2 b3 rest ih =>
    rw [wordsOfBytes, Option.map_eq_none_iff, ih]
    simp only [List.length_cons]
    omega
  | case3 f hnil hfour =>
    match f with
    | [] => exact (hnil rfl).elim
    | [_] | [_, _] | [_, _, _] => simp [wordsOfBytes]
    | b0 :: b1 :: b2 :: b3 :: rest => exact (hfour b0 b1 b2 b3 rest rfl).elim

/-- A file has four bytes for each of its words. -/
theorem length_of_wordsOfBytes {f : List Byte} {ws : List Word} (h : wordsOfBytes f = some ws) :
    f.length = 4 * ws.length := by
  induction f using wordsOfBytes.induct generalizing ws with
  | case1 =>
    obtain rfl : [] = ws := Option.some.inj h
    rfl
  | case2 b0 b1 b2 b3 rest ih =>
    rw [wordsOfBytes, Option.map_eq_some_iff] at h
    obtain ⟨ws, hrest, rfl⟩ := h
    simp only [List.length_cons, ih hrest]
    omega
  | case3 f hnil hfour => simp [wordsOfBytes] at h

/-- Word `k` is the bytes `4k` to `4k + 3` in file order. -/
theorem getElem?_wordsOfBytes {f : List Byte} {ws : List Word} (h : wordsOfBytes f = some ws) (k : Nat)
    {b0 b1 b2 b3 : Byte} (h0 : f[4 * k]? = some b0) (h1 : f[4 * k + 1]? = some b1)
    (h2 : f[4 * k + 2]? = some b2) (h3 : f[4 * k + 3]? = some b3) : ws[k]? = some (wordOfBytes b0 b1 b2 b3) := by
  induction f using wordsOfBytes.induct generalizing ws k with
  | case1 => simp at h0
  | case2 c0 c1 c2 c3 rest ih =>
    rw [wordsOfBytes, Option.map_eq_some_iff] at h
    obtain ⟨ws, hrest, rfl⟩ := h
    cases k with
    | zero => simp_all
    | succ k =>
      simp only [Nat.mul_succ, List.getElem?_cons_succ, Nat.add_right_comm _ 4] at h0 h1 h2 h3 ⊢
      exact ih hrest k h0 h1 h2 h3
  | case3 f hnil hfour => simp [wordsOfBytes] at h

/-- The image the loader delivers is the file's words (70_reset_and_hazards.md R262). -/
theorem wordsOfBytes_of_imageOfBytes {f : List Byte} {image : List Word} (h : imageOfBytes f = some image) :
    wordsOfBytes f = some image := by
  unfold imageOfBytes at h
  cases hwords : wordsOfBytes f with
  | none => simp [hwords] at h
  | some ws =>
    simp only [hwords, Option.ite_none_right_eq_some] at h
    obtain ⟨-, himage⟩ := h
    exact himage

/-- Settles O44: array 0 reads as the image, whose words are the file's. -/
theorem imageWordsAreBigEndian : Obligations.ImageWordsAreBigEndian := by
  intro f input oracle s hboot
  obtain ⟨image, himage, rfl⟩ := Option.map_eq_some_iff.mp hboot
  have hwords := wordsOfBytes_of_imageOfBytes himage
  refine ⟨?_, fun k b0 b1 b2 b3 h0 h1 h2 h3 => ⟨_, ?_, toNat_wordOfBytes b0 b1 b2 b3⟩⟩
  · rw [State.len_boot, length_of_wordsOfBytes hwords]
  · rw [State.read_boot, getElem?_wordsOfBytes hwords k.toNat h0 h1 h2 h3]

/-- Settles O45: a file with no words has a size that is no multiple of 4, and a file with words has a quarter of
its size of them. -/
theorem malformedImagesAreRejected : Obligations.MalformedImagesAreRejected := by
  intro f input oracle
  rw [State.bootBytes, Option.map_eq_none_iff, imageOfBytes]
  cases hwords : wordsOfBytes f with
  | none => simp [(wordsOfBytes_eq_none_iff f).mp hwords]
  | some image =>
    have hlength := length_of_wordsOfBytes hwords
    have hmultiple : f.length % 4 = 0 := by omega
    have hquarter : f.length / 4 = image.length := by omega
    simp [hmultiple, hquarter]

end Sys2Proof.Machine
